-- ==== Sys2Proof/Word.lean ====
section
/-!
DEFINITION. The machine's one word type and its index of a general register.
Every stored value of the machine (register, memory cell, `pc`, `sp`) is an unsigned 8-bit quantity
(spec/00_scope.md section 5, rules R6, R13).
-/
namespace Sys2Proof

/-- A byte: what a memory cell holds (`CELL_BITS` = 8: rule R6), and a general register, `pc` and `sp` in
every width the configuration admits (`XLEN`, `PC_BITS`, `SP_BITS`: `Sys2Proof.Config`). -/
abbrev Byte := BitVec 8

/-- The index of a general register, 0..7 (`NREG` = 8: rules R6, R21). -/
abbrev Reg := Fin 8

end Sys2Proof
end

