-- ==== Sys2Proof/Config.lean ====
section
/-!
DEFINITION. The parameters of the hardware that spec/00_scope.md rule R6 marks "decided", as plain data,
and the types they are made of. The default values stand in `Sys2Proof/Decode.lean` (`Opcodes.standard`,
`RangePolicy.standard`) and `Sys2Proof/Machine/Params.lean` (`Config.standard`). Log entries 1, 3, 4, 5, 6,
19, 22 and 23.
-/
namespace Sys2Proof

/-- `RANGE_POLICY`: what an out-of-range address or register number does (rules R6, R16, R17). -/
inductive RangePolicy where
  | fault
  | wrap
  deriving DecidableEq, Repr

/-- A width of a register in bits. The spec gives its rules for one width only, 8 bits (rule R6, decisions
D1 and D2), so that is the one value the type has (log entry 22). -/
inductive Width where
  | bits8
  deriving DecidableEq, Repr

/-- `OVERFLOW`: what ADD and MUL leave of a result that exceeds `XLEN` bits (rule R6). The rules state
`wraparound`; `saturation` is the other choice the source names (decision D1, log entry 23). -/
inductive Overflow where
  | wraparound
  | saturation
  deriving DecidableEq, Repr

/-- The comparison flags: `e` is `E` (equal), `g` is `G` (greater-than), `l` is `L` (less-than)
(rule R29). The other positions of the source's flags array are not state. -/
structure Flags where
  e : Bool
  g : Bool
  l : Bool
  deriving DecidableEq, Repr

/-- The handlers of the dispatch table: the twelve instructions it maps an opcode byte to
(rule R114). HLT is special-cased before the lookup (rules R90, R110) and is no entry of it. -/
inductive Handler where
  | ldi | prn | mul | add | push | pop | call | ret | cmp | jmp | jeq | jne
  deriving DecidableEq, Repr

/-- The four instruction formats (rule R81). -/
inductive Format where
  | n   -- no operand byte
  | r   -- one register-select byte
  | rr  -- two register-select bytes
  | ri  -- a register-select byte and an immediate byte
  deriving DecidableEq, Repr

/-- The thirteen `OPC_*` parameters, in the order of rule R86's table. -/
structure Opcodes where
  ldi : Byte
  prn : Byte
  mul : Byte
  add : Byte
  push : Byte
  pop : Byte
  call : Byte
  ret : Byte
  cmp : Byte
  jmp : Byte
  jeq : Byte
  jne : Byte
  hlt : Byte
  deriving DecidableEq, Repr

/-- All thirteen opcode bytes. -/
def Opcodes.bytes (o : Opcodes) : List Byte :=
  [o.ldi, o.prn, o.mul, o.add, o.push, o.pop, o.call, o.ret, o.cmp, o.jmp, o.jeq, o.jne, o.hlt]

/-- "The 13 values must be pairwise distinct, whatever values a model is configured with" (rule R86). -/
abbrev Opcodes.Distinct (o : Opcodes) : Prop := o.bytes.Nodup

/-- The configuration: every parameter that rule R6 marks "decided" (and LDI's opcode byte beside the other
twelve). No instruction writes any of them. -/
structure Config where
  /-- `XLEN`: the width of each general register and of every ALU result (decision D1). -/
  xlen : Width
  /-- `OVERFLOW` (decision D1). -/
  overflow : Overflow
  /-- `PC_BITS`: the width of `pc` (decision D2). -/
  pcBits : Width
  /-- `SP_BITS`: the width of `sp` (decision D2). -/
  spBits : Width
  /-- `RANGE_POLICY` (decision D7). -/
  rangePolicy : RangePolicy
  /-- `STRICT_OPCODE` (decision D12). -/
  strictOpcode : Bool
  /-- `R7_RESET` (decision D4). -/
  r7Reset : Byte
  /-- `FL_RESET` (decision D5). -/
  flReset : Flags
  /-- `OPC_*` (decision D11; LDI's value is the source's). -/
  opcodes : Opcodes
  deriving DecidableEq, Repr

end Sys2Proof
end

