-- ==== Sys2Proof/Syntax.lean ====
section
/-!
DEFINITION. The decoded instructions, one constructor per row of spec/opcode_table.json: a mnemonic with
register indices in 0..7 and, for LDI, an immediate byte (rule R85).
-/
namespace Sys2Proof

/-- The thirteen instructions of rule R86 and the unknown-opcode step of rule R112. `a` is the first
register operand, `b` the second. -/
inductive Instr where
  /-- LDI a, imm: load immediate (R130). -/
  | ldi (a : Reg) (imm : Byte)
  /-- PRN a: print register (R131). -/
  | prn (a : Reg)
  /-- MUL a, b: multiply (R142). -/
  | mul (a b : Reg)
  /-- ADD a, b: add (R141). -/
  | add (a b : Reg)
  /-- PUSH a: push register (R161). -/
  | push (a : Reg)
  /-- POP a: pop register (R162). -/
  | pop (a : Reg)
  /-- CALL a: call subroutine (R173). -/
  | call (a : Reg)
  /-- RET: return from subroutine (R174). -/
  | ret
  /-- CMP a, b: compare (R143). -/
  | cmp (a b : Reg)
  /-- JMP a: jump (R170). -/
  | jmp (a : Reg)
  /-- JEQ a: jump if equal (R171). -/
  | jeq (a : Reg)
  /-- JNE a: jump if not equal (R172). -/
  | jne (a : Reg)
  /-- HLT: stop the execution loop (R111). -/
  | hlt
  /-- UNK: any other opcode byte `op` (R112); the byte is kept because strict mode records it. -/
  | unk (op : Byte)
  deriving DecidableEq, Repr

end Sys2Proof
end

