-- ==== Sys2Proof/WellFormed.lean ====
section
/-!
DEFINITION. Which terms of `Instr` are instructions of a machine with the opcode bytes `o`. The ranges of
register indices and of the immediate are in their types; what is left to check is that UNK's byte is none
of the thirteen opcode bytes (rule R112).
-/
namespace Sys2Proof

/-- An instruction the decoder of a machine with opcode bytes `o` can deliver. -/
def Instr.wellFormed (o : Opcodes) : Instr → Bool
  | .ldi _ _ => true
  | .prn _ => true
  | .mul _ _ => true
  | .add _ _ => true
  | .push _ => true
  | .pop _ => true
  | .call _ => true
  | .ret => true
  | .cmp _ _ => true
  | .jmp _ => true
  | .jeq _ => true
  | .jne _ => true
  | .hlt => true
  | .unk op => !(o.bytes.contains op)

end Sys2Proof
end

