-- ==== Sys2Proof/Decode.lean ====
section
/-!
DEFINITION. The dispatch table, the decoder (total on any list of bytes, rejecting by name) and the encoder
(spec/30_encoding.md, spec/40_execution_loop.md rule R114), both written from rules R80 to R90 over the
opcode bytes of the configuration.
-/
namespace Sys2Proof

/-- The opcode bytes of rule R86. LDI's is fixed by the source; the other twelve are decision D11
(log entry 4). -/
def Opcodes.standard : Opcodes where
  ldi := 0x82#8
  prn := 0x47#8
  mul := 0xA2#8
  add := 0xA0#8
  push := 0x45#8
  pop := 0x46#8
  call := 0x50#8
  ret := 0x11#8
  cmp := 0xA7#8
  jmp := 0x54#8
  jeq := 0x55#8
  jne := 0x56#8
  hlt := 0x01#8

/-- `RANGE_POLICY`'s default (rule R6, decision D7). -/
def RangePolicy.standard : RangePolicy := .fault

/-- The format of a handler's instruction (rule R86). -/
def Handler.format : Handler → Format
  | .ldi => .ri
  | .prn | .push | .pop | .call | .jmp | .jeq | .jne => .r
  | .mul | .add | .cmp => .rr
  | .ret => .n

/-- How many operand bytes a format has (rule R81). -/
def Format.operandBytes : Format → Nat
  | .n => 0
  | .r => 1
  | .rr => 2
  | .ri => 2

/-- The opcode byte of a handler. -/
def Opcodes.ofHandler (o : Opcodes) : Handler → Byte
  | .ldi => o.ldi
  | .prn => o.prn
  | .mul => o.mul
  | .add => o.add
  | .push => o.push
  | .pop => o.pop
  | .call => o.call
  | .ret => o.ret
  | .cmp => o.cmp
  | .jmp => o.jmp
  | .jeq => o.jeq
  | .jne => o.jne

/-- All handlers, in the order of rule R86's table. -/
def handlers : List Handler :=
  [.ldi, .prn, .mul, .add, .push, .pop, .call, .ret, .cmp, .jmp, .jeq, .jne]

/-- `lookup(opcode) -> optional(handler)` (rule R114). -/
def lookup (o : Opcodes) (op : Byte) : Option Handler :=
  handlers.find? fun h => o.ofHandler h == op

/-- `RegSel(b)` (rules R17, R83): the whole byte is the index; above 7 it is out of range under `fault`
(answer none) and reduced mod 8 under `wrap`. -/
def regSel (p : RangePolicy) (b : Byte) : Option Reg :=
  if h : b.toNat < 8 then some ⟨b.toNat, h⟩
  else match p with
    | .fault => none
    | .wrap => some ⟨b.toNat % 8, Nat.mod_lt _ (by decide)⟩

/-- Why a list of bytes holds no instruction. -/
inductive Reject where
  /-- The list ends before the instruction's last byte: `OperandFetchRange` when it comes from memory
  (rule R85). -/
  | missingByte
  /-- A register-select byte above 7 under `RANGE_POLICY = fault`; the first offending one
  (rules R17, R191, R192). -/
  | registerRange (b : Byte)
  deriving DecidableEq, Repr

/-- The register a register-select byte names, or the rejection. -/
def selectReg (p : RangePolicy) (b : Byte) : Except Reject Reg :=
  match regSel p b with
  | some r => .ok r
  | none => .error (.registerRange b)

/-- Operands of a one-register instruction. -/
def decodeR (p : RangePolicy) (mk : Reg → Instr) : List Byte → Except Reject (Instr × List Byte)
  | o1 :: rest =>
    match selectReg p o1 with
    | .ok a => .ok (mk a, rest)
    | .error e => .error e
  | [] => .error .missingByte

/-- Operands of a two-register instruction: both bytes are fetched before either is checked, and the
first is checked first (rules R85, R192). -/
def decodeRR (p : RangePolicy) (mk : Reg → Reg → Instr) :
    List Byte → Except Reject (Instr × List Byte)
  | o1 :: o2 :: rest =>
    match selectReg p o1 with
    | .error e => .error e
    | .ok a =>
      match selectReg p o2 with
      | .ok b => .ok (mk a b, rest)
      | .error e => .error e
  | [_] => .error .missingByte
  | [] => .error .missingByte

/-- Operands of LDI: the immediate byte is used as it stands (rules R84, R85). -/
def decodeRI (p : RangePolicy) (mk : Reg → Byte → Instr) :
    List Byte → Except Reject (Instr × List Byte)
  | o1 :: imm :: rest =>
    match selectReg p o1 with
    | .ok a => .ok (mk a imm, rest)
    | .error e => .error e
  | [_] => .error .missingByte
  | [] => .error .missingByte

/-- The operand bytes of a handler's instruction. -/
def decodeOperands (p : RangePolicy) (h : Handler) (bs : List Byte) :
    Except Reject (Instr × List Byte) :=
  match h with
  | .ldi => decodeRI p .ldi bs
  | .prn => decodeR p .prn bs
  | .mul => decodeRR p .mul bs
  | .add => decodeRR p .add bs
  | .push => decodeR p .push bs
  | .pop => decodeR p .pop bs
  | .call => decodeR p .call bs
  | .ret => .ok (.ret, bs)
  | .cmp => decodeRR p .cmp bs
  | .jmp => decodeR p .jmp bs
  | .jeq => decodeR p .jeq bs
  | .jne => decodeR p .jne bs

/-- The instruction at the head of a list of bytes, with the bytes after it (rules R85, R88, R90): HLT is
tested first, then the dispatch table, and every other byte is a one-byte UNK. -/
def decode (p : RangePolicy) (o : Opcodes) : List Byte → Except Reject (Instr × List Byte)
  | [] => .error .missingByte
  | op :: rest =>
    if op = o.hlt then .ok (.hlt, rest)
    else match lookup o op with
      | some h => decodeOperands p h rest
      | none => .ok (.unk op, rest)

/-- The register-select byte that names register `r` (rule R83). -/
def regByte (r : Reg) : Byte := BitVec.ofNat 8 r.val

/-- The bytes of an instruction, the opcode byte first (rules R80, R81, R86). -/
def encode (o : Opcodes) : Instr → List Byte
  | .ldi a imm => [o.ldi, regByte a, imm]
  | .prn a => [o.prn, regByte a]
  | .mul a b => [o.mul, regByte a, regByte b]
  | .add a b => [o.add, regByte a, regByte b]
  | .push a => [o.push, regByte a]
  | .pop a => [o.pop, regByte a]
  | .call a => [o.call, regByte a]
  | .ret => [o.ret]
  | .cmp a b => [o.cmp, regByte a, regByte b]
  | .jmp a => [o.jmp, regByte a]
  | .jeq a => [o.jeq, regByte a]
  | .jne a => [o.jne, regByte a]
  | .hlt => [o.hlt]
  | .unk op => [op]

/-- The length of an instruction in bytes (rules R80, R82, R86). -/
def instrLength : Instr → Nat
  | .ldi _ _ => 3
  | .prn _ => 2
  | .mul _ _ => 3
  | .add _ _ => 3
  | .push _ => 2
  | .pop _ => 2
  | .call _ => 2
  | .ret => 1
  | .cmp _ _ => 3
  | .jmp _ => 2
  | .jeq _ => 2
  | .jne _ => 2
  | .hlt => 1
  | .unk _ => 1

/-- The longest instruction has three bytes (rule R80). -/
def maxInstrLength : Nat := 3

/-- The bytes, lowest address first, of an instruction whose first `nbits` bits are `w` in the numbering
of spec/opcode_table.json (byte k is bits 8k+7..8k); every bit above `nbits` is 0. -/
def tableBytes (nbits w : Nat) : List Byte :=
  (List.range maxInstrLength).map fun k => BitVec.ofNat 8 ((w % 2 ^ nbits) / 256 ^ k)

/-- The instruction the decoder reads, with the default parameters, from an opcode-table word. -/
def decodeTableWord (nbits w : Nat) : Option Instr :=
  match decode RangePolicy.standard Opcodes.standard (tableBytes nbits w) with
  | .ok (i, _) => some i
  | .error _ => none

end Sys2Proof
end

