-- ==== Sys2Proof/Machine/Params.lean ====
section
/-!
DEFINITION. The fixed numbers of the machine and the default configuration (spec/00_scope.md rule R6).
-/
namespace Sys2Proof

/-- `MEM_SIZE`: the number of byte cells, addresses 0..255 (rules R6, R34). -/
def memSize : Nat := 256

/-- `PC_RESET` (rules R6, R37). -/
def pcReset : Byte := 0x00#8

/-- `SP_RESET` (rules R6, R37). -/
def spReset : Byte := 0xF4#8

/-- What a cell that nothing has written reads as: memory is zero-initialized (rules R37, R60). -/
def memUnlisted : Byte := 0x00#8

/-- The reset value of `x[0]`..`x[6]` (rule R37). -/
def xReset : Byte := 0x00#8

/-- The number of bits of a width. -/
def Width.bits : Width → Nat
  | .bits8 => 8

/-- The default parameters of rule R6: `XLEN`, `PC_BITS` and `SP_BITS` 8, `OVERFLOW` wraparound,
`RANGE_POLICY = fault`, `STRICT_OPCODE = false`, `R7_RESET = 0xF4`, `FL_RESET = (0,0,0)` and the opcode bytes
of rule R86 (log entries 3 to 6). -/
def Config.standard : Config where
  xlen := .bits8
  overflow := .wraparound
  pcBits := .bits8
  spBits := .bits8
  rangePolicy := RangePolicy.standard
  strictOpcode := false
  r7Reset := 0xF4#8
  flReset := ⟨false, false, false⟩
  opcodes := Opcodes.standard

end Sys2Proof
end

