-- ==== Sys2Proof/Machine/State.lean ====
section
/-!
DEFINITION. The state of the machine (spec/10_state.md rule R20) as plain data, its faults and refusals, and
the state right after reset (rules R37, R220).
-/
namespace Sys2Proof.Machine

/-- The fault causes of rule R191. -/
inductive Cause where
  | operandFetchRange
  | registerRange
  | stackRange
  | pcRange
  | aluUnsupported
  | illegalOpcode
  deriving DecidableEq, Repr

/-- A cause and the info recorded with it: what `raise C(info)` carries (rules R19, R191). -/
structure Trap where
  cause : Cause
  info : Int
  deriving DecidableEq, Repr

/-- The run state (rule R32). FAULTED holds the cause and the info the host reads as `fault_cause` and
`fault_info` (rule R12). -/
inductive Run where
  | running
  | halted
  | faulted (trap : Trap)
  deriving DecidableEq, Repr

/-- Memory: the cells that do not read as `memUnlisted`, by strictly rising address (rules R34, R60;
log entry 14). -/
abbrev Memory := List Host.Cell

/-- The whole state (rule R20). `cfg` is the model's own field: the parameters the machine was built with,
which no step writes (log entry 1). -/
structure State where
  /-- The parameters of rule R6 (the model's own field). -/
  cfg : Config
  /-- 256 cells of 8 bits (R34). -/
  mem : Memory
  /-- The general registers `x[0]`..`x[7]` (R21, R22). -/
  x : Vector Byte 8
  /-- The stack pointer (R24). -/
  sp : Byte
  /-- The program counter (R26). -/
  pc : Byte
  /-- The flags `E`, `G`, `L` (R29). -/
  fl : Flags
  /-- The run state (R32). -/
  run : Run
  /-- The output trace, oldest value first (R33). -/
  out : List Byte
  deriving DecidableEq, Repr

/-- Why `step` has no next state. A fault the spec describes (rule R190) is NOT one of these: it is a next
state whose run state is FAULTED. -/
inductive Fault where
  /-- Raised by `step` when the run state is HALTED: no step exists from HALTED (rule R32). Safe: the spec
  gives the machine no further step. -/
  | halted
  /-- Raised by `step` when the run state is FAULTED: no step exists from FAULTED (rules R32, R190). Safe:
  the spec gives the machine no further step. -/
  | faulted
  deriving DecidableEq, Repr

/-- What the model refuses. -/
inductive Refusal where
  /-- An instruction that has no meaning yet; raised by an arm of `exec` only. No arm raises it. Safe: the
  model stops. -/
  | notModelled (mnemonic : String)
  /-- Raised by the loader (`loadImage`) for an image of more than 256 bytes: refused by the interface
  (rule R10, decision D18). Safe: no run exists for it. -/
  | imageTooLong (length : Nat)
  /-- Raised by the loader (`loadImage`) for an image value above 255 (rule R10, decision D18). Safe: no run
  exists for it. -/
  | imageByteRange (value : Nat)
  deriving DecidableEq, Repr

/-- The machine after construction with the parameters `c` (rule R220). No program is loaded, so the run
state is the one rule R222 gives such a machine (log entry 2). -/
def State.constructed (c : Config) : State where
  cfg := c
  mem := []
  x := #v[xReset, xReset, xReset, xReset, xReset, xReset, xReset, c.r7Reset]
  sp := spReset
  pc := pcReset
  fl := c.flReset
  run := .halted
  out := []

/-- The machine right after reset, with the default parameters (rules R37, R220, R222). -/
def State.reset : State := State.constructed Config.standard

end Sys2Proof.Machine
end

