-- ==== Sys2Proof/Machine/Ops.lean ====
section
/-!
DEFINITION. The named operations over memory, registers and the run state: the primitives of
spec/00_scope.md rules R13 to R19, each written once. Taking a fault (`raise`) is one of them. The machine
has no return from a fault (spec/60_exceptions.md rule R194).
-/
namespace Sys2Proof.Machine

/-! ### Memory -/

/-- The byte in cell `a` (rules R14, R60). -/
def Memory.read : Memory → Nat → Byte
  | [], _ => memUnlisted
  | (b, v) :: m, a => if a = b then v else Memory.read m a

/-- A cell in front of a memory, unless it holds what an unlisted address reads as. -/
def Memory.consCell (a : Nat) (v : Byte) (m : Memory) : Memory :=
  if v = memUnlisted then m else (a, v) :: m

/-- Cell `a` set to `v`, in canonical form (rule R15). -/
def Memory.write : Memory → Nat → Byte → Memory
  | [], a, v => Memory.consCell a v []
  | (b, w) :: m, a, v =>
    if a < b then Memory.consCell a v ((b, w) :: m)
    else if a = b then Memory.consCell a v m
    else (b, w) :: Memory.write m a v

/-- The canonical form: addresses below `memSize` and strictly rising, no cell that reads as an unlisted
address does (log entry 14). -/
def Memory.wf : Memory → Bool
  | [] => true
  | (a, v) :: m =>
    decide (a < memSize) && decide (v ≠ memUnlisted) && m.all (fun c => decide (a < c.1)) && Memory.wf m

/-- `MemRead(a, 1)` (rule R14). -/
def State.memRead (s : State) (a : Byte) : Byte := s.mem.read a.toNat

/-- `MemWrite(a, 1, v)` (rule R15). -/
def State.memWrite (s : State) (a v : Byte) : State := { s with mem := s.mem.write a.toNat v }

/-! ### Registers, counters, flags, run state, output -/

/-- The low `w` bits of a value: what a register of width `w` keeps of it (rule R6). -/
def fitWidth (w : Width) (v : Byte) : Byte := BitVec.ofNat 8 (v.toNat % 2 ^ w.bits)

/-- `x[i]` (rule R13). -/
def State.getReg (s : State) (i : Reg) : Byte := s.x[i]

/-- `x[i] <- v`, a register of `XLEN` bits (rules R6, R13, R21). -/
def State.setReg (s : State) (i : Reg) (v : Byte) : State :=
  { s with x := s.x.set i (fitWidth s.cfg.xlen v) }

/-- `pc <- v`, a register of `PC_BITS` bits (rules R6, R13, R26). -/
def State.setPc (s : State) (v : Byte) : State := { s with pc := fitWidth s.cfg.pcBits v }

/-- `sp <- v`, a register of `SP_BITS` bits (rules R6, R13, R24). -/
def State.setSp (s : State) (v : Byte) : State := { s with sp := fitWidth s.cfg.spBits v }

/-- The three flags written at once (rule R30). -/
def State.setFlags (s : State) (f : Flags) : State := { s with fl := f }

/-- `run <- r` (rule R32). -/
def State.setRun (s : State) (r : Run) : State := { s with run := r }

/-- `Emit(v)` (rule R18). -/
def State.emit (s : State) (v : Byte) : State := { s with out := s.out ++ [v] }

/-! ### Faults -/

/-- The code of a cause (rule R191). -/
def Cause.code : Cause → Nat
  | .operandFetchRange => 1
  | .registerRange => 2
  | .stackRange => 3
  | .pcRange => 4
  | .aluUnsupported => 5
  | .illegalOpcode => 6

/-- TAKING A FAULT: `run <- FAULTED(cause, info)` and nothing else (rules R19, R190, R193). -/
def raise (s : State) (t : Trap) : State := s.setRun (.faulted t)

/-- What an instruction answers. -/
abbrev Result := Host.Outcome State Fault Refusal

/-- A check that comes before the commits of an instruction (rule R19): its value goes on to `k`, and a
failed check takes the fault from the state `s` at the start of the step. -/
def checked {α : Type} (s : State) (r : Except Trap α) (k : α → Result) : Result :=
  match r with
  | .ok v => k v
  | .error t => .next (raise s t)

/-! ### Addresses and truncation -/

/-- `trunc8(v)`: `v mod 256` (spec/00_scope.md section 5). -/
def trunc8 (v : Int) : Byte := BitVec.ofInt 8 v

/-- `0 <= v <= 255`: `v` is the address of a cell (rules R16, R50). -/
def isAddress : Int → Bool
  | .ofNat n => decide (n < memSize)
  | .negSucc _ => false

/-- `AddrOf(v, Cause)` (rule R16). -/
def addrOf (p : RangePolicy) (v : Int) (c : Cause) : Except Trap Byte :=
  if isAddress v then .ok (trunc8 v)
  else match p with
    | .fault => .error ⟨c, v⟩
    | .wrap => .ok (trunc8 v)

/-! ### The ALU -/

/-- The ALU's selector (rule R140). `other` is an operation symbol that is none of the three: the
"unsupported ALU operation" of rule R144, which no instruction uses (log entry 10). -/
inductive AluOp where
  | add
  | mul
  | cmp
  | other (selector : Nat)
  deriving DecidableEq, Repr

/-- What ADD and MUL leave of their exact result `n`: `n mod 2^XLEN` under `OVERFLOW = wraparound`, which
rule R145 states; the largest `XLEN`-bit value where `n` exceeds it under `saturation` (log entry 23). -/
def aluFit (c : Config) (n : Nat) : Byte :=
  match c.overflow with
  | .wraparound => BitVec.ofNat 8 (n % 2 ^ c.xlen.bits)
  | .saturation => BitVec.ofNat 8 (min n (2 ^ c.xlen.bits - 1))

/-- The sum of two register values (rules R141, R145). -/
def aluSum (c : Config) (va vb : Byte) : Byte := aluFit c (va.toNat + vb.toNat)

/-- The product of two register values (rules R142, R145). -/
def aluProduct (c : Config) (va vb : Byte) : Byte := aluFit c (va.toNat * vb.toNat)

end Sys2Proof.Machine
end

