-- ==== Sys2Proof/Machine/Flags.lean ====
section
/-!
DEFINITION. The flag computations: what CMP writes (spec/42_alu.md rule R143), the two branch conditions
(spec/44_control_flow.md rules R171, R172) and the presentation of the flags as a byte (spec/10_state.md
rule R31).
-/
namespace Sys2Proof.Machine

/-- CMP's three flags: unsigned comparison of the 8-bit values, the first operand on the left
(rule R143). -/
def cmpFlags (va vb : Byte) : Flags where
  e := decide (va.toNat = vb.toNat)
  g := decide (va.toNat > vb.toNat)
  l := decide (va.toNat < vb.toNat)

/-- JEQ's condition: `E = 1` (rule R171). -/
def jeqTaken (f : Flags) : Bool := f.e

/-- JNE's condition: `G = 1 or L = 1`, which is not the same as `E = 0` (rule R172, conflict C10). -/
def jneTaken (f : Flags) : Bool := f.g || f.l

/-- The flags shown as one byte: `FL[0] = E`, `FL[1] = G`, `FL[2] = L`, the rest 0 (rule R31). No
instruction observes it (log entry 12). -/
def packFlags (f : Flags) : Byte :=
  BitVec.ofNat 8 (f.e.toNat + 2 * f.g.toNat + 4 * f.l.toNat)

end Sys2Proof.Machine
end

