-- ==== Sys2Proof/Machine/Operands.lean ====
section
/-!
DEFINITION. The operand forms: fetching an instruction's bytes and decoding them (spec/30_encoding.md rule
R85), the sequential next `pc` (spec/10_state.md rules R27, R28), and the two stack addresses, which are the
machine's only data addressing (spec/43_stack.md rule R160).
-/
namespace Sys2Proof.Machine

/-- The address of byte `k` of the instruction at `pc`. -/
def fetchAddr (s : State) (k : Nat) : Except Trap Byte :=
  addrOf s.cfg.rangePolicy (s.pc.toNat + k) .operandFetchRange

/-- The byte at an address, if there is one. -/
def byteAt (s : State) (a : Except Trap Byte) : Option Byte :=
  match a with
  | .ok b => some (s.memRead b)
  | .error _ => none

/-- The bytes from `pc` on that an instruction at `pc` can have: up to three, fewer where the address
space ends first (rules R57, R80; log entry 8). -/
def fetchWindow (s : State) : List Byte :=
  (List.range maxInstrLength).filterMap fun k => byteAt s (fetchAddr s k)

/-- The fault a rejected window raises (rule R191): the first out-of-range address, or the offending
register-select byte. -/
def rejectTrap (s : State) : Reject → Trap
  | .missingByte => ⟨.operandFetchRange, s.pc.toNat + (fetchWindow s).length⟩
  | .registerRange b => ⟨.registerRange, b.toNat⟩

/-- Fetch and decode of the instruction at `pc` (rules R85, R110). -/
def fetchInstr (s : State) : Except Trap Instr :=
  match decode s.cfg.rangePolicy s.cfg.opcodes (fetchWindow s) with
  | .ok (i, _) => .ok i
  | .error e => .error (rejectTrap s e)

/-- `AddrOf(pc + n, PcRange)`: the sequential next `pc` of an instruction of `n` bytes, and CALL's return
address (rules R27, R28, R173). -/
def nextPc (s : State) (n : Nat) : Except Trap Byte :=
  addrOf s.cfg.rangePolicy (s.pc.toNat + n) .pcRange

/-- `AddrOf(sp - 1, StackRange)`: the effective address of a push (rule R160). -/
def pushAddr (s : State) : Except Trap Byte :=
  addrOf s.cfg.rangePolicy ((s.sp.toNat : Int) - 1) .stackRange

/-- `AddrOf(sp + 1, StackRange)`: the stack pointer after a pop (rule R160). -/
def popAddr (s : State) : Except Trap Byte :=
  addrOf s.cfg.rangePolicy (s.sp.toNat + 1) .stackRange

/-- The commits of `Push8`: the byte stored at `nsp`, which becomes `sp` (rule R160). -/
def commitPush (s : State) (nsp v : Byte) : State := (s.memWrite nsp v).setSp nsp

/-- The byte `Pop8` loads (rule R160). -/
def stackTop (s : State) : Byte := s.memRead s.sp

/-- The byte `b` stored where the fetch reads byte `k` of the instruction at `pc`; nothing is stored where
that address does not exist (log entry 17). -/
def placeByte (s : State) (k : Nat) (b : Byte) : State :=
  match fetchAddr s k with
  | .ok a => s.memWrite a b
  | .error _ => s

/-- The bytes of an instruction stored where the fetch reads its bytes `k`, `k + 1`, ... -/
def placeBytes (k : Nat) : List Byte → State → State
  | [], s => s
  | b :: bs, s => placeBytes (k + 1) bs (placeByte s k b)

end Sys2Proof.Machine
end

