-- ==== Sys2Proof/Machine/Alu.lean ====
section
/-!
DEFINITION. The ALU (spec/42_alu.md rules R140, R144) and its three instructions ADD, MUL and CMP
(rules R141 to R143).
-/
namespace Sys2Proof.Machine

/-- `apply(op, regA, regB)` (rules R140, R144): both reads come before the write; it writes `x[regA]` or
the three flags and nothing else. -/
def aluApply (op : AluOp) (a b : Reg) (s : State) : Except Trap State :=
  match op with
  | .add => .ok (s.setReg a (aluSum s.cfg (s.getReg a) (s.getReg b)))
  | .mul => .ok (s.setReg a (aluProduct s.cfg (s.getReg a) (s.getReg b)))
  | .cmp => .ok (s.setFlags (cmpFlags (s.getReg a) (s.getReg b)))
  | .other n => .error ⟨.aluUnsupported, n⟩

/-- The handler shared by the ALU's instructions: the next `pc` is checked first, the ALU last
(rule R192). -/
def aluInstr (op : AluOp) (a b : Reg) (s : State) : Result :=
  checked s (nextPc s 3) fun npc =>
  checked s (aluApply op a b s) fun t =>
  .next (t.setPc npc)

/-- ADD a, b (rule R141). -/
def execAdd (a b : Reg) (s : State) : Result := aluInstr .add a b s

/-- MUL a, b (rule R142). -/
def execMul (a b : Reg) (s : State) : Result := aluInstr .mul a b s

/-- CMP a, b (rule R143). -/
def execCmp (a b : Reg) (s : State) : Result := aluInstr .cmp a b s

end Sys2Proof.Machine
end

