-- ==== Sys2Proof/Machine/Control.lean ====
section
/-!
DEFINITION. Control transfer: JMP, JEQ, JNE, CALL and RET (spec/44_control_flow.md). A target is the 8-bit
value of a register or of the stack's top, used as it stands (rule R175).
-/
namespace Sys2Proof.Machine

/-- The conditional branch shared by JEQ and JNE: a taken one computes no sequential `pc`. -/
def branch (taken : Bool) (a : Reg) (s : State) : Result :=
  if taken then .next (s.setPc (s.getReg a))
  else checked s (nextPc s 2) fun npc => .next (s.setPc npc)

/-- JMP a (rule R170). -/
def execJmp (a : Reg) (s : State) : Result := .next (s.setPc (s.getReg a))

/-- JEQ a (rule R171). -/
def execJeq (a : Reg) (s : State) : Result := branch (jeqTaken s.fl) a s

/-- JNE a (rule R172). -/
def execJne (a : Reg) (s : State) : Result := branch (jneTaken s.fl) a s

/-- CALL a (rule R173): the return address is `pc + 2`. -/
def execCall (a : Reg) (s : State) : Result :=
  checked s (pushAddr s) fun nsp =>
  checked s (nextPc s 2) fun ret =>
  .next ((commitPush s nsp ret).setPc (s.getReg a))

/-- RET (rule R174). -/
def execRet (s : State) : Result :=
  checked s (popAddr s) fun nsp =>
  .next ((s.setSp nsp).setPc (stackTop s))

end Sys2Proof.Machine
end

