-- ==== Sys2Proof/Machine/DataMove.lean ====
section
/-!
DEFINITION. Data movement and output: LDI and PRN (spec/41_data_movement.md).
-/
namespace Sys2Proof.Machine

/-- LDI a, imm (rule R130). -/
def execLdi (a : Reg) (imm : Byte) (s : State) : Result :=
  checked s (nextPc s 3) fun npc =>
  .next ((s.setReg a imm).setPc npc)

/-- PRN a (rule R131). -/
def execPrn (a : Reg) (s : State) : Result :=
  checked s (nextPc s 2) fun npc =>
  .next ((s.emit (s.getReg a)).setPc npc)

end Sys2Proof.Machine
end

