-- ==== Sys2Proof/Machine/Loop.lean ====
section
/-!
DEFINITION. The two steps the execution loop itself defines: HLT and the unknown opcode
(spec/40_execution_loop.md rules R111, R112).
-/
namespace Sys2Proof.Machine

/-- HLT (rule R111): only the run state changes; `pc` stays at the HLT byte. -/
def execHlt (s : State) : Result := .next (s.setRun .halted)

/-- UNK (rule R112): a one-byte no-operation, or IllegalOpcode in strict mode, checked first. -/
def execUnk (op : Byte) (s : State) : Result :=
  if s.cfg.strictOpcode then .next (raise s ⟨.illegalOpcode, op.toNat⟩)
  else checked s (nextPc s 1) fun npc => .next (s.setPc npc)

end Sys2Proof.Machine
end

