-- ==== Sys2Proof/Machine/Stack.lean ====
section
/-!
DEFINITION. The stack instructions PUSH and POP (spec/43_stack.md): every check in the order of rule R192,
then the commits.
-/
namespace Sys2Proof.Machine

/-- PUSH a (rule R161). -/
def execPush (a : Reg) (s : State) : Result :=
  checked s (pushAddr s) fun nsp =>
  checked s (nextPc s 2) fun npc =>
  .next ((commitPush s nsp (s.getReg a)).setPc npc)

/-- POP a (rule R162). -/
def execPop (a : Reg) (s : State) : Result :=
  checked s (popAddr s) fun nsp =>
  checked s (nextPc s 2) fun npc =>
  .next (((s.setReg a (stackTop s)).setSp nsp).setPc npc)

end Sys2Proof.Machine
end

