-- ==== Sys2Proof/Machine/Step.lean ====
section
/-!
DEFINITION. One step of the execution loop (spec/40_execution_loop.md rule R110), and the placing of an
instruction where the next step fetches it.
-/
namespace Sys2Proof.Machine

/-- One step (rule R110). It exists only when `run = RUNNING` (rule R32); fetch and decode come first and
may raise, then the instruction runs. -/
def step (s : State) : Host.Outcome State Fault Refusal :=
  match s.run with
  | .running => checked s (fetchInstr s) fun i => exec i s
  | .halted => .fault .halted
  | .faulted _ => .fault .faulted

/-- `s` with the instruction of an opcode-table word stored at `pc` and the loop started: it stands for the
loader's write and for `start` (rules R10, R221; log entry 2). -/
def State.withFetchWord (s : State) (nbits w : Nat) : State :=
  (placeBytes 0 (tableBytes nbits w) s).setRun .running

end Sys2Proof.Machine
end

