-- ==== Sys2Proof/Machine/Loader.lean ====
section
/-!
DEFINITION. What the host does before a run: construct, load, start (spec/00_scope.md rules R9, R10, R12,
spec/70_reset_and_hazards.md rules R220 to R222, R229). These are operations on a state outside `step`:
"while the run state is RUNNING no other agent reads or writes any state of the block" (rule R7).
-/
namespace Sys2Proof.Machine

/-- One write of the loader's port: `ld_addr`, `ld_data` with `ld_we` (rule R10). -/
def loadByte (a d : Byte) (s : State) : State := s.memWrite a d

/-- Successive bytes written to addresses `a`, `a + 1`, ..., in order (rules R10, R66). -/
def loadFrom (a : Nat) : List Nat → Memory → Memory
  | [], m => m
  | v :: vs, m => loadFrom (a + 1) vs (m.write a (BitVec.ofNat 8 v))

/-- The loader presents an image (rule R10): it is refused if it has more than 256 values or a value above
255, else written from address 0 on, and `pc`, `sp` are reset. -/
def loadImage (img : List Nat) (s : State) : Result :=
  if memSize < img.length then .refused (.imageTooLong img.length)
  else match img.find? (fun v => decide (255 < v)) with
    | some v => .refused (.imageByteRange v)
    | none => .next (({ s with mem := loadFrom 0 img s.mem }.setPc pcReset).setSp spReset)

/-- `start`, with `prog_present` (rules R12, R221, R222). -/
def start (progPresent : Bool) (s : State) : State :=
  s.setRun (if progPresent then .running else .halted)

/-- The entry contract: construct, load, start (rules R9, R220 to R222). A program is present when its image
has at least one byte. -/
def launch (c : Config) (img : List Nat) : Result :=
  match loadImage img (State.constructed c) with
  | .next s => .next (start (decide (1 ≤ img.length)) s)
  | .fault f => .fault f
  | .refused r => .refused r

end Sys2Proof.Machine
end

