-- ==== Sys2Proof/Machine/Ports.lean ====
section
/-!
DEFINITION. The outputs the host and the sink see (spec/00_scope.md rules R11, R12), as functions of the
state.
-/
namespace Sys2Proof.Machine

/-- `halted` (rule R12). -/
def State.haltedPort (s : State) : Bool := decide (s.run = .halted)

/-- `faulted` (rule R12). -/
def State.faultedPort (s : State) : Bool :=
  match s.run with
  | .faulted _ => true
  | .running => false
  | .halted => false

/-- `fault_cause`: the code of rule R191, when the run state is FAULTED. -/
def State.faultCausePort (s : State) : Option Nat :=
  match s.run with
  | .faulted t => some t.cause.code
  | .running => none
  | .halted => none

/-- `fault_info` (rule R191), when the run state is FAULTED. -/
def State.faultInfoPort (s : State) : Option Int :=
  match s.run with
  | .faulted t => some t.info
  | .running => none
  | .halted => none

/-- `out_data` with `out_valid`: what a step from `s` to `t` hands the sink, none where `out_valid` gives no
pulse (rule R11). -/
def outPort (s t : State) : Option Byte := (t.out.drop s.out.length).head?

end Sys2Proof.Machine
end

