-- ==== Sys2Proof/Safety.lean ====
section
/-!
DEFINITION. What counts as a good state and a good end of a run (spec/10_state.md rules R30, R32,
spec/40_execution_loop.md rule R113, spec/60_exceptions.md rule R190).
-/
namespace Sys2Proof.Machine

/-- Exactly one flag is set: what holds after every CMP (rules R29, R30). -/
def oneFlagSet (f : Flags) : Bool := f.e.toNat + f.g.toNat + f.l.toNat == 1

/-- The flags are mutually exclusive: at most one is set (rule R29). -/
def flagsExclusive (f : Flags) : Bool := decide (f.e.toNat + f.g.toNat + f.l.toNat ≤ 1)

/-- The machine's invariant: memory is in canonical form, the flags are mutually exclusive, and the opcode
bytes are pairwise distinct (rules R29, R34, R86). -/
def State.inv (s : State) : Bool := s.mem.wf && flagsExclusive s.fl && decide s.cfg.opcodes.Distinct

/-- No step exists: HALTED or FAULTED (rule R32). -/
def State.terminal (s : State) : Bool := decide (s.run ≠ .running)

/-- The state after at most `n` steps, stopping where no step exists (rule R113: a model's executor runs
under fuel). -/
def runSteps : Nat → State → State
  | 0, s => s
  | n + 1, s =>
    match step s with
    | .next t => runSteps n t
    | .fault _ => s
    | .refused _ => s

/-- A run that ends well: HALTED within `n` steps. A run that ends FAULTED has not halted
(rules R113, R190). -/
def State.haltsWithin (s : State) (n : Nat) : Prop := (runSteps n s).run = .halted

/-- A safe run: no state it reaches is FAULTED. -/
def State.neverFaults (s : State) : Prop := ∀ n, (runSteps n s).faultedPort = false

end Sys2Proof.Machine
end

