-- ==== Sys2Proof/Certificates/Slice0/Obligations.lean ====
section
/-!
DEFINITION. The statements for the provers, taken from the numbered rules of spec/. The helpers under
`Sys2Proof.Rules` write the rules' own vocabulary (the instruction's bytes, the checks of rule R192 in their
order) without the model's operations.
-/
namespace Sys2Proof.Rules

open Sys2Proof.Machine

/-- Byte `k` of the instruction at `pc`, its address taken mod 256 (rules R52, R85). -/
def cell (s : State) (k : Nat) : Byte := s.mem.read ((s.pc.toNat + k) % 256)

/-- The register an operand byte names, its number taken mod 8: the byte itself where it is in range
(rules R17, R83). -/
def regNamed (b : Byte) : Reg := Fin.ofNat 8 b.toNat

/-- The loop is running, the opcode bytes are pairwise distinct (rule R86) and the byte at `pc` is `op`. -/
def Fetches (s : State) (op : Byte) : Prop :=
  s.run = .running ∧ s.cfg.opcodes.Distinct ∧ s.mem.read s.pc.toNat = op

/-- The exact sequential address `pc + n` exists, or addresses wrap (rules R16, R28). -/
def PcFits (s : State) (n : Nat) : Prop := s.cfg.rangePolicy = .wrap ∨ s.pc.toNat + n ≤ 255

/-- `sp - 1` exists, or addresses wrap (rules R16, R160). -/
def PushFits (s : State) : Prop := s.cfg.rangePolicy = .wrap ∨ 1 ≤ s.sp.toNat

/-- `sp + 1` exists, or addresses wrap (rules R16, R160). -/
def PopFits (s : State) : Prop := s.cfg.rangePolicy = .wrap ∨ s.sp.toNat ≤ 254

/-- A check: the fault it raises, if any. -/
abbrev Check := Option Trap

/-- The operand bytes up to `pc + n` are past the top of memory: `OperandFetchRange(256)` (rule R191). -/
def operandCheck (s : State) (n : Nat) : Check :=
  if s.cfg.rangePolicy = .fault ∧ 255 < s.pc.toNat + n then some ⟨.operandFetchRange, 256⟩ else none

/-- A register-select byte above 7: `RegisterRange(byte)` (rule R191). -/
def registerCheck (s : State) (b : Byte) : Check :=
  if s.cfg.rangePolicy = .fault ∧ 7 < b.toNat then some ⟨.registerRange, b.toNat⟩ else none

/-- A push at `sp = 0`: `StackRange(-1)` (rule R191). -/
def pushCheck (s : State) : Check :=
  if s.cfg.rangePolicy = .fault ∧ s.sp.toNat = 0 then some ⟨.stackRange, -1⟩ else none

/-- A pop at `sp = 255`: `StackRange(256)` (rule R191). -/
def popCheck (s : State) : Check :=
  if s.cfg.rangePolicy = .fault ∧ s.sp.toNat = 255 then some ⟨.stackRange, 256⟩ else none

/-- The sequential address `pc + n` is past the top of memory: `PcRange(256)` (rule R191). -/
def pcCheck (s : State) (n : Nat) : Check :=
  if s.cfg.rangePolicy = .fault ∧ 255 < s.pc.toNat + n then some ⟨.pcRange, 256⟩ else none

/-- The first check that raises decides the fault, and nothing but the run state changes; if none raises,
the step's effect is `t` (rules R19, R190, R192). -/
def after (s : State) (checks : List Check) (t : State) : Host.Outcome State Fault Refusal :=
  match checks.filterMap id with
  | [] => .next t
  | tr :: _ => .next { s with run := .faulted tr }

/-- What ADD and MUL leave of their exact result `n`: `n mod 256` under `OVERFLOW = wraparound` (rule R145),
255 in place of a greater `n` under `saturation` (log entry 23). -/
def kept (s : State) (n : Nat) : Byte :=
  if s.cfg.overflow = .wraparound then BitVec.ofNat 8 n else BitVec.ofNat 8 (min n 255)

/-- The flags CMP leaves for the unsigned values `va`, `vb` (rule R143). -/
def compared (va vb : Nat) : Flags := ⟨decide (va = vb), decide (va > vb), decide (va < vb)⟩

/-- A faulting step's outcome: only the run state differs (rule R190). -/
def OnlyFaults (s t : State) : Prop := ∃ tr, t = { s with run := .faulted tr }

/-- Every byte of memory reads in `t` as in `s`. -/
def SameMemory (s t : State) : Prop := ∀ a : Nat, t.mem.read a = s.mem.read a

/-- A list of instructions executed one after the other. -/
def execAll : List Instr → State → Option State
  | [], s => some s
  | i :: is, s =>
    match exec i s with
    | .next t => execAll is t
    | .fault _ => none
    | .refused _ => none

/-- The 2-byte instructions that push or pop, or advance `pc` by 2: those whose PcRange fault arises at
`pc = 254` (rule R191), a conditional branch only when it is not taken. -/
def TwoByteAdvance (s : State) (op : Byte) : Prop :=
  op = s.cfg.opcodes.prn ∨ op = s.cfg.opcodes.push ∨ op = s.cfg.opcodes.pop ∨ op = s.cfg.opcodes.call ∨
    (op = s.cfg.opcodes.jeq ∧ s.fl.e = false) ∨
    (op = s.cfg.opcodes.jne ∧ s.fl.g = false ∧ s.fl.l = false)

/-- The opcode bytes of the 3-byte instructions (formats RR and RI, rule R86). -/
def ThreeByte (o : Opcodes) (op : Byte) : Prop := op = o.ldi ∨ op = o.mul ∨ op = o.add ∨ op = o.cmp

/-- The opcode bytes of the 2-byte instructions (format R, rule R86). -/
def TwoByte (o : Opcodes) (op : Byte) : Prop :=
  op = o.prn ∨ op = o.push ∨ op = o.pop ∨ op = o.call ∨ op = o.jmp ∨ op = o.jeq ∨ op = o.jne

end Sys2Proof.Rules

open Sys2Proof Sys2Proof.Machine Sys2Proof.Rules

/-! ### Each instruction's effect, and where it completes -/

/-- LDI and PRN complete wherever the next sequential `pc` exists (pseudocode of rules R130, R131): LDI
loads the immediate and advances by 3, PRN appends the register's value to the output and advances by 2;
nothing else changes. -/
def Obligations.DataMovementCompletes : Prop :=
  (∀ (s : State) (a : Reg) (imm : Byte), PcFits s 3 →
    exec (.ldi a imm) s = .next { s with x := s.x.set a imm, pc := s.pc + 3#8 }) ∧
  (∀ (s : State) (a : Reg), PcFits s 2 →
    exec (.prn a) s = .next { s with out := s.out ++ [s.x[a]], pc := s.pc + 2#8 })

/-- ADD, MUL and CMP complete wherever the next sequential `pc` exists (pseudocode of rules R141 to R143):
the sum and the product go to the first register, mod 256 where the parameter OVERFLOW is wraparound as the
rules have it; CMP writes the three flags by unsigned comparison; nothing else changes but `pc`, advanced by
3. What OVERFLOW = saturation leaves is the model's reading (log entry 23). -/
def Obligations.AluInstructionsComplete : Prop :=
  ∀ (s : State) (a b : Reg), PcFits s 3 →
    exec (.add a b) s = .next { s with
      x := s.x.set a (kept s (s.x[a].toNat + s.x[b].toNat)), pc := s.pc + 3#8 } ∧
    exec (.mul a b) s = .next { s with
      x := s.x.set a (kept s (s.x[a].toNat * s.x[b].toNat)), pc := s.pc + 3#8 } ∧
    exec (.cmp a b) s = .next { s with
      fl := compared s.x[a].toNat s.x[b].toNat, pc := s.pc + 3#8 }

/-- PUSH and POP complete wherever their stack address and the next sequential `pc` exist (pseudocode of
rules R161, R162): PUSH stores the register at `sp - 1`, which becomes `sp`; POP loads the byte at `sp` and
increments `sp`; `pc` advances by 2 and nothing else changes. -/
def Obligations.StackInstructionsComplete : Prop :=
  (∀ (s : State) (a : Reg), PushFits s → PcFits s 2 →
    exec (.push a) s = .next { s with
      mem := s.mem.write (s.sp - 1#8).toNat s.x[a], sp := s.sp - 1#8, pc := s.pc + 2#8 }) ∧
  (∀ (s : State) (a : Reg), PopFits s → PcFits s 2 →
    exec (.pop a) s = .next { s with
      x := s.x.set a (s.mem.read s.sp.toNat), sp := s.sp + 1#8, pc := s.pc + 2#8 })

/-- JMP always completes; JEQ and JNE complete where they are taken or the next sequential `pc` exists
(pseudocode of rules R170 to R172): only `pc` changes, to the register's value when taken and by 2 when
not. JNE is taken iff `G` or `L` is set. -/
def Obligations.JumpsComplete : Prop :=
  ∀ (s : State) (a : Reg),
    exec (.jmp a) s = .next { s with pc := s.x[a] } ∧
    (s.fl.e = true ∨ PcFits s 2 →
      exec (.jeq a) s = .next { s with pc := if s.fl.e then s.x[a] else s.pc + 2#8 }) ∧
    (s.fl.g = true ∨ s.fl.l = true ∨ PcFits s 2 →
      exec (.jne a) s = .next { s with pc := if s.fl.g || s.fl.l then s.x[a] else s.pc + 2#8 })

/-- CALL completes wherever `sp - 1` and `pc + 2` exist, RET wherever `sp + 1` does (pseudocode of rules
R173, R174): CALL stores `pc + 2` at `sp - 1`, which becomes `sp`, and jumps to the register's value; RET
jumps to the byte at `sp` and increments `sp`; nothing else changes. -/
def Obligations.CallAndReturnComplete : Prop :=
  (∀ (s : State) (a : Reg), PushFits s → PcFits s 2 →
    exec (.call a) s = .next { s with
      mem := s.mem.write (s.sp - 1#8).toNat (s.pc + 2#8), sp := s.sp - 1#8, pc := s.x[a] }) ∧
  (∀ s : State, PopFits s →
    exec .ret s = .next { s with sp := s.sp + 1#8, pc := s.mem.read s.sp.toNat })

/-- HLT always completes and changes the run state only; UNK completes, in the default (not strict) mode,
wherever `pc + 1` exists, and changes `pc` only (pseudocode of rules R111, R112). -/
def Obligations.HltAndUnknownComplete : Prop :=
  (∀ s : State, exec .hlt s = .next { s with run := .halted }) ∧
  (∀ (s : State) (op : Byte), s.cfg.strictOpcode = false → PcFits s 1 →
    exec (.unk op) s = .next { s with pc := s.pc + 1#8 })

/-! ### Each instruction's rule, whole: one step from the fetch of its opcode byte

Each holds for every value of the parameters, but that ADD's and MUL's name the rules' own value of OVERFLOW,
wraparound; SaturatingAluSteps says the same under saturation. The spec's decisions they contain: the
uniform decode (D14), the order of the checks (D10), out-of-range addresses and register numbers (D7, D20,
D21), precise faults (D8), 8-bit wraparound (D1), unsigned CMP (D15), `pc` after HLT (D13), strict mode (D12). -/

/-- Rule R130. -/
def Obligations.LdiStep : Prop :=
  ∀ s : State, Fetches s s.cfg.opcodes.ldi →
    step s = after s [operandCheck s 2, registerCheck s (cell s 1), pcCheck s 3]
      { s with x := s.x.set (regNamed (cell s 1)) (cell s 2), pc := s.pc + 3#8 }

/-- Rule R131. -/
def Obligations.PrnStep : Prop :=
  ∀ s : State, Fetches s s.cfg.opcodes.prn →
    step s = after s [operandCheck s 1, registerCheck s (cell s 1), pcCheck s 2]
      { s with out := s.out ++ [s.x[regNamed (cell s 1)]], pc := s.pc + 2#8 }

/-- Rule R141, with the rule's `OVERFLOW = wraparound` named (decision D1). -/
def Obligations.AddStep : Prop :=
  ∀ s : State, Fetches s s.cfg.opcodes.add → s.cfg.overflow = .wraparound →
    step s = after s
      [operandCheck s 2, registerCheck s (cell s 1), registerCheck s (cell s 2), pcCheck s 3]
      { s with
        x := s.x.set (regNamed (cell s 1))
          (BitVec.ofNat 8 (s.x[regNamed (cell s 1)].toNat + s.x[regNamed (cell s 2)].toNat))
        pc := s.pc + 3#8 }

/-- Rule R142, with the rule's `OVERFLOW = wraparound` named (decision D1). -/
def Obligations.MulStep : Prop :=
  ∀ s : State, Fetches s s.cfg.opcodes.mul → s.cfg.overflow = .wraparound →
    step s = after s
      [operandCheck s 2, registerCheck s (cell s 1), registerCheck s (cell s 2), pcCheck s 3]
      { s with
        x := s.x.set (regNamed (cell s 1))
          (BitVec.ofNat 8 (s.x[regNamed (cell s 1)].toNat * s.x[regNamed (cell s 2)].toNat))
        pc := s.pc + 3#8 }

/-- ADD and MUL under `OVERFLOW = saturation`, the other choice the source names (decision D1): the checks
are those of rules R141 and R142, and a result above 255 leaves 255. That saturation means this is the model's
reading, log entry 23. -/
def Obligations.SaturatingAluSteps : Prop :=
  ∀ s : State, s.cfg.overflow = .saturation →
    (Fetches s s.cfg.opcodes.add →
      step s = after s
        [operandCheck s 2, registerCheck s (cell s 1), registerCheck s (cell s 2), pcCheck s 3]
        { s with
          x := s.x.set (regNamed (cell s 1)) (BitVec.ofNat 8
            (min (s.x[regNamed (cell s 1)].toNat + s.x[regNamed (cell s 2)].toNat) 255))
          pc := s.pc + 3#8 }) ∧
    (Fetches s s.cfg.opcodes.mul →
      step s = after s
        [operandCheck s 2, registerCheck s (cell s 1), registerCheck s (cell s 2), pcCheck s 3]
        { s with
          x := s.x.set (regNamed (cell s 1)) (BitVec.ofNat 8
            (min (s.x[regNamed (cell s 1)].toNat * s.x[regNamed (cell s 2)].toNat) 255))
          pc := s.pc + 3#8 })

/-- Rule R143. -/
def Obligations.CmpStep : Prop :=
  ∀ s : State, Fetches s s.cfg.opcodes.cmp →
    step s = after s
      [operandCheck s 2, registerCheck s (cell s 1), registerCheck s (cell s 2), pcCheck s 3]
      { s with
        fl := compared s.x[regNamed (cell s 1)].toNat s.x[regNamed (cell s 2)].toNat
        pc := s.pc + 3#8 }

/-- Rule R161. -/
def Obligations.PushStep : Prop :=
  ∀ s : State, Fetches s s.cfg.opcodes.push →
    step s = after s [operandCheck s 1, registerCheck s (cell s 1), pushCheck s, pcCheck s 2]
      { s with
        mem := s.mem.write (s.sp - 1#8).toNat s.x[regNamed (cell s 1)]
        sp := s.sp - 1#8
        pc := s.pc + 2#8 }

/-- Rule R162. -/
def Obligations.PopStep : Prop :=
  ∀ s : State, Fetches s s.cfg.opcodes.pop →
    step s = after s [operandCheck s 1, registerCheck s (cell s 1), popCheck s, pcCheck s 2]
      { s with
        x := s.x.set (regNamed (cell s 1)) (s.mem.read s.sp.toNat)
        sp := s.sp + 1#8
        pc := s.pc + 2#8 }

/-- Rule R170: no sequential `pc` is computed, so there is no PcRange check. -/
def Obligations.JmpStep : Prop :=
  ∀ s : State, Fetches s s.cfg.opcodes.jmp →
    step s = after s [operandCheck s 1, registerCheck s (cell s 1)]
      { s with pc := s.x[regNamed (cell s 1)] }

/-- Rule R171: the operand checks come whether or not the jump is taken. -/
def Obligations.JeqStep : Prop :=
  ∀ s : State, Fetches s s.cfg.opcodes.jeq →
    step s = after s
      ([operandCheck s 1, registerCheck s (cell s 1)] ++ if s.fl.e then [] else [pcCheck s 2])
      { s with pc := if s.fl.e then s.x[regNamed (cell s 1)] else s.pc + 2#8 }

/-- Rule R172: taken iff `G` or `L` is set, which is not `E = 0`. -/
def Obligations.JneStep : Prop :=
  ∀ s : State, Fetches s s.cfg.opcodes.jne →
    step s = after s
      ([operandCheck s 1, registerCheck s (cell s 1)] ++
        if s.fl.g || s.fl.l then [] else [pcCheck s 2])
      { s with pc := if s.fl.g || s.fl.l then s.x[regNamed (cell s 1)] else s.pc + 2#8 }

/-- Rule R173: the return address is `pc + 2`. -/
def Obligations.CallStep : Prop :=
  ∀ s : State, Fetches s s.cfg.opcodes.call →
    step s = after s [operandCheck s 1, registerCheck s (cell s 1), pushCheck s, pcCheck s 2]
      { s with
        mem := s.mem.write (s.sp - 1#8).toNat (s.pc + 2#8)
        sp := s.sp - 1#8
        pc := s.x[regNamed (cell s 1)] }

/-- Rule R174. -/
def Obligations.RetStep : Prop :=
  ∀ s : State, Fetches s s.cfg.opcodes.ret →
    step s = after s [popCheck s] { s with sp := s.sp + 1#8, pc := s.mem.read s.sp.toNat }

/-- Rule R111: HLT is tested before the table, so the opcode bytes need not be distinct; it never faults,
and no step follows it. -/
def Obligations.HltStep : Prop :=
  ∀ s : State, s.run = .running → s.mem.read s.pc.toNat = s.cfg.opcodes.hlt →
    step s = .next { s with run := .halted } ∧ step { s with run := .halted } = .fault .halted

/-- Rule R112: any other opcode byte is skipped, or, in strict mode, raises IllegalOpcode with the byte. -/
def Obligations.UnknownOpcodeStep : Prop :=
  ∀ s : State, s.run = .running → s.mem.read s.pc.toNat ∉ s.cfg.opcodes.bytes →
    step s =
      if s.cfg.strictOpcode then
        .next { s with run := .faulted ⟨.illegalOpcode, (s.mem.read s.pc.toNat).toNat⟩ }
      else after s [pcCheck s 1] { s with pc := s.pc + 1#8 }

/-! ### Encoding -/

/-- Decoding the encoding of any well-formed instruction, whatever bytes follow, gives the instruction and
those bytes: for all fourteen constructors, every operand value, either range policy and any distinct opcode
bytes. -/
def Obligations.DecodeOfEncodeIsTheInstruction : Prop :=
  ∀ (p : RangePolicy) (o : Opcodes) (i : Instr) (rest : List Byte),
    o.Distinct → i.wellFormed o = true → decode p o (encode o i ++ rest) = .ok (i, rest)

/-- Under `RANGE_POLICY = fault` no two byte strings mean the same instruction: whatever the decoder reads
is well-formed, and encoding it gives back the bytes that were read. -/
def Obligations.EncodeOfDecodeIsTheBytesRead : Prop :=
  ∀ (o : Opcodes) (bs rest : List Byte) (i : Instr),
    decode .fault o bs = .ok (i, rest) → i.wellFormed o = true ∧ encode o i ++ rest = bs

/-- The encoding vectors E1 to E17 of spec/95_test_vectors.md section 2.1, with the default opcode bytes
(LDI's is the source's, the other twelve are decision D11). -/
def Obligations.EncodingVectorsDecode : Prop :=
  decode .fault Opcodes.standard [0x82#8, 0x00#8, 0x08#8] = .ok (.ldi 0 0x08#8, []) ∧
  decode .fault Opcodes.standard [0x47#8, 0x00#8] = .ok (.prn 0, []) ∧
  decode .fault Opcodes.standard [0xA2#8, 0x00#8, 0x01#8] = .ok (.mul 0 1, []) ∧
  decode .fault Opcodes.standard [0xA0#8, 0x02#8, 0x03#8] = .ok (.add 2 3, []) ∧
  decode .fault Opcodes.standard [0x45#8, 0x04#8] = .ok (.push 4, []) ∧
  decode .fault Opcodes.standard [0x46#8, 0x05#8] = .ok (.pop 5, []) ∧
  decode .fault Opcodes.standard [0x50#8, 0x01#8] = .ok (.call 1, []) ∧
  decode .fault Opcodes.standard [0x11#8] = .ok (.ret, []) ∧
  decode .fault Opcodes.standard [0xA7#8, 0x00#8, 0x02#8] = .ok (.cmp 0 2, []) ∧
  decode .fault Opcodes.standard [0x54#8, 0x03#8] = .ok (.jmp 3, []) ∧
  decode .fault Opcodes.standard [0x55#8, 0x02#8] = .ok (.jeq 2, []) ∧
  decode .fault Opcodes.standard [0x56#8, 0x03#8] = .ok (.jne 3, []) ∧
  decode .fault Opcodes.standard [0x01#8] = .ok (.hlt, []) ∧
  decode .fault Opcodes.standard [0x00#8] = .ok (.unk 0x00#8, []) ∧
  decode .fault Opcodes.standard [0xA1#8] = .ok (.unk 0xA1#8, []) ∧
  decode .fault Opcodes.standard [0xC3#8] = .ok (.unk 0xC3#8, []) ∧
  decode .fault Opcodes.standard [0x82#8, 0x07#8, 0xFF#8] = .ok (.ldi 7 0xFF#8, [])

/-- With distinct opcode bytes exactly 243 of the 256 byte values are unknown, and each decodes, whatever
bytes follow it, to a one-byte UNK (rules R87, R88, R89). -/
def Obligations.UnknownBytesAre243OneByteInstructions : Prop :=
  ∀ (p : RangePolicy) (o : Opcodes), o.Distinct →
    ((List.range 256).filter fun n => !(o.bytes.contains (BitVec.ofNat 8 n))).length = 243 ∧
    ∀ (op : Byte) (rest : List Byte), op ∉ o.bytes → decode p o (op :: rest) = .ok (.unk op, rest)

/-- The decoder consumes exactly the length of the instruction's format, 1, 2 or 3 bytes, and leaves the
rest as it was (rules R80, R82). -/
def Obligations.DecodeConsumesTheFormatLength : Prop :=
  ∀ (p : RangePolicy) (o : Opcodes) (bs rest : List Byte) (i : Instr),
    decode p o bs = .ok (i, rest) →
      rest = bs.drop (instrLength i) ∧ instrLength i ≤ bs.length ∧ instrLength i ∈ [1, 2, 3]

/-- The decoder rejects a list of bytes for two reasons only: the list is shorter than three bytes, or,
under `RANGE_POLICY = fault`, a register-select byte of its two operand bytes is above 7; under `wrap` any
three bytes hold an instruction (rules R17, R83, R89). -/
def Obligations.DecodeRejectsOnlyMissingBytesOrRegisters : Prop :=
  ∀ (p : RangePolicy) (o : Opcodes) (bs : List Byte),
    (decode p o bs = .error .missingByte → bs.length < 3) ∧
    (∀ b, decode p o bs = .error (.registerRange b) →
      p = .fault ∧ 8 ≤ b.toNat ∧ b ∈ (bs.drop 1).take 2) ∧
    (p = .wrap → 3 ≤ bs.length → ∃ i rest, decode p o bs = .ok (i, rest))

/-! ### The loop, the run state and the faults -/

/-- Where the run state is RUNNING and the bytes at `pc` decode to an instruction, the step is that
instruction's meaning, and nothing is added around it (rule R110). -/
def Obligations.StepRunsTheDecodedInstruction : Prop :=
  ∀ (s : State) (i : Instr) (rest : List Byte), s.run = .running →
    decode s.cfg.rangePolicy s.cfg.opcodes (fetchWindow s) = .ok (i, rest) → step s = exec i s

/-- No step exists from HALTED or FAULTED: the outcome is a stop named after the run state (rule R32). -/
def Obligations.NoStepFromHaltedOrFaulted : Prop :=
  ∀ s : State,
    (s.run = .halted → step s = .fault .halted) ∧
    (∀ tr, s.run = .faulted tr → step s = .fault .faulted)

/-- A step ends HALTED exactly when the byte at `pc` is HLT's; otherwise it ends RUNNING or FAULTED
(rules R32, R110, R113). -/
def Obligations.OnlyHltHalts : Prop :=
  ∀ s t : State, step s = .next t →
    (t.run = .halted ↔ s.mem.read s.pc.toNat = s.cfg.opcodes.hlt) ∧
    (s.mem.read s.pc.toNat ≠ s.cfg.opcodes.hlt → t.run = .running ∨ ∃ tr, t.run = .faulted tr)

/-- Faults are precise (rule R190): a step that ends FAULTED has changed the run state and nothing else,
whatever the instruction and the cause, and no step follows it. -/
def Obligations.FaultsArePrecise : Prop :=
  ∀ (s t : State) (tr : Trap), step s = .next t → t.run = .faulted tr →
    t = { s with run := .faulted tr } ∧ step t = .fault .faulted

/-- The table of causes (rule R191): a step that ends FAULTED has the run parameters, the opcode, the
registers and the info of its cause's row, and no step ends with AluUnsupported; the codes are 1 to 6. -/
def Obligations.FaultCausesFollowTheTable : Prop :=
  (∀ (s t : State) (tr : Trap), step s = .next t → t.run = .faulted tr →
    match tr.cause with
    | .operandFetchRange => s.cfg.rangePolicy = .fault ∧ tr.info = 256 ∧
        ((s.pc.toNat = 255 ∧ (TwoByte s.cfg.opcodes (cell s 0) ∨ ThreeByte s.cfg.opcodes (cell s 0))) ∨
          (s.pc.toNat = 254 ∧ ThreeByte s.cfg.opcodes (cell s 0)))
    | .registerRange => s.cfg.rangePolicy = .fault ∧ 8 ≤ tr.info ∧ tr.info ≤ 255 ∧
        ((tr.info = (cell s 1).toNat ∧
            (TwoByte s.cfg.opcodes (cell s 0) ∨ ThreeByte s.cfg.opcodes (cell s 0))) ∨
          (tr.info = (cell s 2).toNat ∧ (cell s 1).toNat ≤ 7 ∧ ThreeByte s.cfg.opcodes (cell s 0)))
    | .stackRange => s.cfg.rangePolicy = .fault ∧
        ((tr.info = -1 ∧ s.sp.toNat = 0 ∧
            (cell s 0 = s.cfg.opcodes.push ∨ cell s 0 = s.cfg.opcodes.call)) ∨
          (tr.info = 256 ∧ s.sp.toNat = 255 ∧
            (cell s 0 = s.cfg.opcodes.pop ∨ cell s 0 = s.cfg.opcodes.ret)))
    | .pcRange => s.cfg.rangePolicy = .fault ∧ tr.info = 256 ∧
        ((s.pc.toNat = 253 ∧ ThreeByte s.cfg.opcodes (cell s 0)) ∨
          (s.pc.toNat = 254 ∧ TwoByteAdvance s (cell s 0)) ∨
          (s.pc.toNat = 255 ∧ cell s 0 ∉ s.cfg.opcodes.bytes))
    | .aluUnsupported => False
    | .illegalOpcode => s.cfg.strictOpcode = true ∧ tr.info = (cell s 0).toNat ∧
        cell s 0 ∉ s.cfg.opcodes.bytes) ∧
  [Cause.operandFetchRange, .registerRange, .stackRange, .pcRange, .aluUnsupported,
    .illegalOpcode].map Cause.code = [1, 2, 3, 4, 5, 6]

/-- An operation symbol other than ADD, MUL and CMP raises AluUnsupported with the selector, and no step
of any program does (rule R144, which the spec marks as derived from R140 and R114). That such a symbol is
`other n` and its info the number `n` is the model's: the rule does not say what a selector's number is
(log entry 10, DEDUCED). -/
def Obligations.UnsupportedAluOperationNeverArises : Prop :=
  (∀ (n : Nat) (a b : Reg) (s : State), aluApply (.other n) a b s = .error ⟨.aluUnsupported, n⟩) ∧
  (∀ (s t : State) (n : Int), step s = .next t → t.run ≠ .faulted ⟨.aluUnsupported, n⟩)

/-! ### Invariants -/

/-- Every step keeps the machine's invariant: memory in canonical form, at most one flag set, the opcode
bytes pairwise distinct. The canonical form is the model's own (log entry 14). -/
def Obligations.StepKeepsTheInvariant : Prop :=
  ∀ s t : State, s.inv = true → step s = .next t → t.inv = true

/-- The invariant holds right after reset. -/
def Obligations.ResetMeetsTheInvariant : Prop := State.reset.inv = true

/-- Once exactly one flag is set every step keeps it so, and a CMP that completes makes it so (the invariant
of rule R30, which the spec derives). -/
def Obligations.ExactlyOneFlagFromTheFirstCmpOn : Prop :=
  (∀ s t : State, oneFlagSet s.fl = true → step s = .next t → oneFlagSet t.fl = true) ∧
  (∀ (s t : State) (a b : Reg), PcFits s 3 → exec (.cmp a b) s = .next t → oneFlagSet t.fl = true)

/-- The output trace only grows, by at most one value a step, and grows exactly when the step completes a
PRN: then the value is that of the register the operand byte names (rules R11, R33). -/
def Obligations.OutputGrowsOnlyByPrn : Prop :=
  ∀ s t : State, step s = .next t → s.cfg.opcodes.Distinct →
    (t.out = s.out ++ [s.x[regNamed (cell s 1)]] ∧ cell s 0 = s.cfg.opcodes.prn ∧ t.run = .running) ∨
    (t.out = s.out ∧ (cell s 0 ≠ s.cfg.opcodes.prn ∨ OnlyFaults s t))

/-! ### The primitives -/

/-- `AddrOf(v, Cause)` (rule R16), for every integer and cause, under both policies. -/
def Obligations.AddrOfRangesOrFaults : Prop :=
  ∀ (p : RangePolicy) (v : Int) (c : Cause),
    (0 ≤ v ∧ v ≤ 255 → ∃ a, addrOf p v c = .ok a ∧ (a.toNat : Int) = v) ∧
    (¬(0 ≤ v ∧ v ≤ 255) → p = .fault → addrOf p v c = .error ⟨c, v⟩) ∧
    (¬(0 ≤ v ∧ v ≤ 255) → p = .wrap → ∃ a, addrOf p v c = .ok a ∧ (a.toNat : Int) = v % 256)

/-- `RegSel(b)` (rule R17): the whole byte is compared. In range, or under `wrap`, `selectReg` gives the
register; above 7 under `fault` it gives the rejection `RegisterRange(b)`, and a step whose bytes the decoder
rejects so performs `raise RegisterRange(b)` (rule R19): only the run state changes. -/
def Obligations.RegSelComparesTheWholeByte : Prop :=
  ∀ (p : RangePolicy) (b : Byte),
    (b.toNat ≤ 7 → ∃ r, regSel p b = some r ∧ selectReg p b = .ok r ∧ r.val = b.toNat) ∧
    (7 < b.toNat → p = .fault → regSel p b = none ∧ selectReg p b = .error (.registerRange b)) ∧
    (7 < b.toNat → p = .wrap →
      ∃ r, regSel p b = some r ∧ selectReg p b = .ok r ∧ r.val = b.toNat % 8) ∧
    (∀ s : State, rejectTrap s (.registerRange b) = ⟨.registerRange, b.toNat⟩) ∧
    (∀ s : State, s.run = .running →
      decode s.cfg.rangePolicy s.cfg.opcodes (fetchWindow s) = .error (.registerRange b) →
      step s = .next { s with run := .faulted ⟨.registerRange, b.toNat⟩ })

/-- A read gives the value of the latest write to the cell, and a write leaves every other cell alone (rules
R14, R15, R60). A write also keeps memory in canonical form: the form is the model's own representation, no
rule's (log entry 14, DESIGN CHOICE), and the premise is that memory has it. -/
def Obligations.ReadGivesTheLatestWrite : Prop :=
  ∀ (s : State) (a v : Byte), s.mem.wf = true →
    (s.memWrite a v).memRead a = v ∧
    (∀ b : Byte, b ≠ a → (s.memWrite a v).memRead b = s.memRead b) ∧
    (s.memWrite a v).mem.wf = true

/-! ### Frames -/

/-- LDI, ADD and MUL leave every register but the destination, `sp`, the flags, the output, the parameters
and every byte of memory unchanged; the run state too, unless the instruction faults, and then everything
else is unchanged (rule R38). -/
def Obligations.RegisterWritingFrame : Prop :=
  ∀ (s t : State) (a : Reg) (i : Instr),
    ((∃ imm, i = .ldi a imm) ∨ (∃ b, i = .add a b) ∨ (∃ b, i = .mul a b)) → exec i s = .next t →
      (∀ r, r ≠ a → t.getReg r = s.getReg r) ∧ t.sp = s.sp ∧ t.fl = s.fl ∧ t.out = s.out ∧
      t.cfg = s.cfg ∧ SameMemory s t ∧ (t.run = s.run ∨ OnlyFaults s t)

/-- PRN, CMP, JMP, JEQ, JNE, RET, HLT and UNK leave every register, the parameters and every byte of memory
unchanged; only RET changes `sp`, only CMP the flags, only PRN the output, and the run state only HLT or a
fault, which changes nothing else (rule R38). -/
def Obligations.NoRegisterWritingFrame : Prop :=
  ∀ (s t : State) (i : Instr),
    ((∃ a, i = .prn a) ∨ (∃ a b, i = .cmp a b) ∨ (∃ a, i = .jmp a) ∨ (∃ a, i = .jeq a) ∨
      (∃ a, i = .jne a) ∨ i = .ret ∨ i = .hlt ∨ (∃ op, i = .unk op)) → exec i s = .next t →
      (∀ r, t.getReg r = s.getReg r) ∧ t.cfg = s.cfg ∧ SameMemory s t ∧
      (i ≠ .ret → t.sp = s.sp) ∧ ((∀ a b, i ≠ .cmp a b) → t.fl = s.fl) ∧
      ((∀ a, i ≠ .prn a) → t.out = s.out) ∧ (i ≠ .hlt → t.run = s.run ∨ OnlyFaults s t)

/-- POP leaves every register but its destination, the flags, the output, the parameters and every byte of
memory unchanged; `sp` is its other destination (rule R38). -/
def Obligations.PopFrame : Prop :=
  ∀ (s t : State) (a : Reg), exec (.pop a) s = .next t →
    (∀ r, r ≠ a → t.getReg r = s.getReg r) ∧ t.fl = s.fl ∧ t.out = s.out ∧ t.cfg = s.cfg ∧
    SameMemory s t ∧ (t.run = s.run ∨ OnlyFaults s t)

/-- PUSH and CALL leave every register, the flags, the output and the parameters unchanged, and every byte
of memory but the one at the stack address they compute; where that address does not exist no byte of memory
changes (rules R38, R51). `sp` and `pc` are their destinations. -/
def Obligations.PushingFrame : Prop :=
  ∀ (s t : State) (a : Reg) (i : Instr), (i = .push a ∨ i = .call a) → exec i s = .next t →
    (∀ r, t.getReg r = s.getReg r) ∧ t.fl = s.fl ∧ t.out = s.out ∧ t.cfg = s.cfg ∧
    (∀ nsp, pushAddr s = .ok nsp → ∀ b : Nat, b ≠ nsp.toNat → t.mem.read b = s.mem.read b) ∧
    (∀ e, pushAddr s = .error e → SameMemory s t) ∧ (t.run = s.run ∨ OnlyFaults s t)

/-- The flags are read by JEQ and JNE only (rule R30): any other instruction, run with other flags `f`, gives
the same state with the flags `f`, but a CMP that completes, which gives the very same state: the flags it
writes do not depend on the old ones. JEQ depends on `E` alone and JNE on `G` and `L` alone. -/
def Obligations.FlagsAreReadOnlyByBranches : Prop :=
  (∀ (s t : State) (f : Flags) (i : Instr), (∀ a, i ≠ .jeq a) → (∀ a, i ≠ .jne a) →
    (∀ a b, i ≠ .cmp a b) → exec i s = .next t → exec i { s with fl := f } = .next { t with fl := f }) ∧
  (∀ (s t : State) (f : Flags) (a b : Reg), exec (.cmp a b) s = .next t →
    (PcFits s 3 → exec (.cmp a b) { s with fl := f } = .next t) ∧
    (¬PcFits s 3 → exec (.cmp a b) { s with fl := f } = .next { t with fl := f })) ∧
  (∀ (s t : State) (f : Flags) (a : Reg), f.e = s.fl.e → exec (.jeq a) s = .next t →
    exec (.jeq a) { s with fl := f } = .next { t with fl := f }) ∧
  (∀ (s t : State) (f : Flags) (a : Reg), f.g = s.fl.g → f.l = s.fl.l → exec (.jne a) s = .next t →
    exec (.jne a) { s with fl := f } = .next { t with fl := f })

/-- Every instruction but PUSH, POP, CALL and RET neither reads nor writes `sp`, also when an operand names
`x[7]`: run with another `sp`, it does the same and leaves that `sp` (rules R22, R24; the separation of `sp`
from `x[7]` is the spec's decision D3). -/
def Obligations.StackPointerIsOnlyTheStackInstructions : Prop :=
  ∀ (s t : State) (v : Byte) (i : Instr), (∀ a, i ≠ .push a) → (∀ a, i ≠ .pop a) →
    (∀ a, i ≠ .call a) → i ≠ .ret → exec i s = .next t →
      t.sp = s.sp ∧ exec i { s with sp := v } = .next { t with sp := v }

/-! ### Reset and the loader -/

/-- The state after construction (rule R220), for all parameters, and `State.reset` with the default ones:
memory zero, `x[0]`..`x[6]` zero, `x[7]` the parameter R7_RESET (0xF4 by default, decision D4), `sp` 0xF4,
`pc` 0, the flags the parameter FL_RESET (all clear by default, decision D5), no output. -/
def Obligations.ConstructionValues : Prop :=
  (∀ c : Config,
    (∀ a : Nat, (State.constructed c).mem.read a = 0#8) ∧
    (∀ r : Reg, r ≠ 7 → (State.constructed c).getReg r = 0#8) ∧
    (State.constructed c).getReg 7 = c.r7Reset ∧ (State.constructed c).sp = 0xF4#8 ∧
    (State.constructed c).pc = 0#8 ∧ (State.constructed c).fl = c.flReset ∧
    (State.constructed c).out = [] ∧ (State.constructed c).cfg = c) ∧
  State.reset.getReg 7 = 0xF4#8 ∧ State.reset.fl = ⟨false, false, false⟩

/-- The loader's interface (rule R10), from any state with canonical memory: an image of at most 256 bytes
is written from address 0 in order, every other cell keeps its value, `pc` and `sp` are reset and nothing
else changes; an image of more than 256 values, or one that fits and has a value above 255, is refused by
name. Rule R10 refuses both without saying which refusal is reported where both apply: that a too long image
is refused as too long, whatever its values, is the model's choice (log entry 15, DESIGN CHOICE). So is memory's
canonical form, in the premise and in what the written memory keeps (log entry 14, DESIGN CHOICE). -/
def Obligations.LoaderWritesTheImage : Prop :=
  ∀ (s : State) (img : List Nat), s.mem.wf = true →
    (img.length ≤ 256 → (∀ v ∈ img, v ≤ 255) →
      ∃ m, loadImage img s = .next { s with mem := m, pc := 0#8, sp := 0xF4#8 } ∧
        (∀ i (h : i < img.length), (m.read i).toNat = img[i]) ∧
        (∀ i, img.length ≤ i → m.read i = s.mem.read i) ∧ m.wf = true) ∧
    (256 < img.length → loadImage img s = .refused (.imageTooLong img.length)) ∧
    (img.length ≤ 256 → (∃ v ∈ img, 255 < v) →
      ∃ v ∈ img, 255 < v ∧ loadImage img s = .refused (.imageByteRange v))

/-- The state at the start of a run (rule R37): the image's bytes and then zeros in memory, `x[0]`..`x[6]`
zero, `x[7]` R7_RESET, `sp` 0xF4, `pc` 0, the flags FL_RESET, no output, and RUNNING exactly when the image
has at least one byte, else HALTED. -/
def Obligations.StartOfRunValues : Prop :=
  ∀ (c : Config) (img : List Nat), img.length ≤ 256 → (∀ v ∈ img, v ≤ 255) →
    ∃ t, launch c img = .next t ∧
      (∀ i (h : i < img.length), (t.mem.read i).toNat = img[i]) ∧
      (∀ i, img.length ≤ i → t.mem.read i = 0#8) ∧
      (∀ r : Reg, r ≠ 7 → t.getReg r = 0#8) ∧ t.getReg 7 = c.r7Reset ∧ t.sp = 0xF4#8 ∧ t.pc = 0#8 ∧
      t.fl = c.flReset ∧ t.out = [] ∧ t.cfg = c ∧
      t.run = if 1 ≤ img.length then .running else .halted

/-! ### The stack -/

/-- CALL and a matching RET (rules R173, R174): after a CALL that completes, a RET in any state of the same
machine whose `sp` and whose byte there are as the CALL left them goes to the address after the CALL and
restores `sp`, changing nothing else. The premise on memory is the model's canonical form (log entry 14). -/
def Obligations.ReturnGoesAfterTheCall : Prop :=
  ∀ (s : State) (a : Reg), s.mem.wf = true → PushFits s → PcFits s 2 →
    ∃ t, exec (.call a) s = .next t ∧ t.pc = s.x[a] ∧
      ∀ u : State, u.cfg = s.cfg → u.sp = t.sp → u.mem.read t.sp.toNat = t.mem.read t.sp.toNat →
        exec .ret u = .next { u with sp := s.sp, pc := s.pc + 2#8 }

/-- Balance (rule R163, which the spec derives): pushing any sequence of registers and popping them in
reverse order restores every register and `sp`, advances `pc` by the instructions' bytes, and changes no
memory but the cells the pushes wrote. The premise on memory is the model's canonical form (log entry 14). -/
def Obligations.BalancedPushesAndPopsRestore : Prop :=
  ∀ (rs : List Reg) (s : State), s.mem.wf = true →
    ((s.cfg.rangePolicy = .wrap ∧ rs.length ≤ 256) ∨
      (rs.length ≤ s.sp.toNat ∧ s.pc.toNat + 4 * rs.length ≤ 255)) →
    ∃ m, execAll (rs.map .push ++ rs.reverse.map .pop) s =
        some { s with mem := m, pc := s.pc + BitVec.ofNat 8 (4 * rs.length) } ∧
      ∀ b : Nat, (∀ k, 1 ≤ k → k ≤ rs.length → b ≠ (s.sp - BitVec.ofNat 8 k).toNat) →
        m.read b = s.mem.read b

/-- Instruction-fetch coherence (rule R63, which the spec derives): the byte a PUSH or CALL stores is the
byte the very next fetch reads at that address, at any of the instruction's byte positions. The premise on
memory is the model's canonical form (log entry 14). -/
def Obligations.PushedByteIsFetched : Prop :=
  ∀ (s t : State) (a : Reg) (nsp v : Byte), s.mem.wf = true → s.run = .running →
    pushAddr s = .ok nsp →
    ((exec (.push a) s = .next t ∧ v = s.getReg a) ∨
      (exec (.call a) s = .next t ∧ v = s.pc + 2#8)) → t.run = .running →
    ∀ k, k < 3 → fetchAddr t k = .ok nsp → (fetchWindow t)[k]? = some v
end

