-- ==== Sys2Proof/Laws/State.lean ====
section
/-!
SUPPORT. One lemma per field per update of the state, true by definition, so that no later proof unfolds a
record update; and the register file's read-after-write.
-/
namespace Sys2Proof.Machine

/-! ### Widths -/

@[simp] theorem width_bits (w : Width) : w.bits = 8 := by cases w; rfl

/-- A register of any width the configuration admits keeps a byte whole. -/
@[simp] theorem fitWidth_eq (w : Width) (v : Byte) : fitWidth w v = v := by
  have := v.isLt
  apply BitVec.eq_of_toNat_eq
  simp [fitWidth]
  omega

variable (s : State)

/-! ### The register writes as updates of a field -/

theorem State.setReg_eq (i : Reg) (v : Byte) : s.setReg i v = { s with x := s.x.set i v } := by
  simp [State.setReg]

theorem State.setPc_eq (v : Byte) : s.setPc v = { s with pc := v } := by simp [State.setPc]

theorem State.setSp_eq (v : Byte) : s.setSp v = { s with sp := v } := by simp [State.setSp]

/-! ### setReg -/

@[simp] theorem State.setReg_cfg (i : Reg) (v : Byte) : (s.setReg i v).cfg = s.cfg := rfl
@[simp] theorem State.setReg_mem (i : Reg) (v : Byte) : (s.setReg i v).mem = s.mem := rfl
@[simp] theorem State.setReg_x (i : Reg) (v : Byte) : (s.setReg i v).x = s.x.set i v := by
  simp [State.setReg]
@[simp] theorem State.setReg_sp (i : Reg) (v : Byte) : (s.setReg i v).sp = s.sp := rfl
@[simp] theorem State.setReg_pc (i : Reg) (v : Byte) : (s.setReg i v).pc = s.pc := rfl
@[simp] theorem State.setReg_fl (i : Reg) (v : Byte) : (s.setReg i v).fl = s.fl := rfl
@[simp] theorem State.setReg_run (i : Reg) (v : Byte) : (s.setReg i v).run = s.run := rfl
@[simp] theorem State.setReg_out (i : Reg) (v : Byte) : (s.setReg i v).out = s.out := rfl

/-! ### setPc -/

@[simp] theorem State.setPc_cfg (v : Byte) : (s.setPc v).cfg = s.cfg := rfl
@[simp] theorem State.setPc_mem (v : Byte) : (s.setPc v).mem = s.mem := rfl
@[simp] theorem State.setPc_x (v : Byte) : (s.setPc v).x = s.x := rfl
@[simp] theorem State.setPc_sp (v : Byte) : (s.setPc v).sp = s.sp := rfl
@[simp] theorem State.setPc_pc (v : Byte) : (s.setPc v).pc = v := by simp [State.setPc]
@[simp] theorem State.setPc_fl (v : Byte) : (s.setPc v).fl = s.fl := rfl
@[simp] theorem State.setPc_run (v : Byte) : (s.setPc v).run = s.run := rfl
@[simp] theorem State.setPc_out (v : Byte) : (s.setPc v).out = s.out := rfl

/-! ### setSp -/

@[simp] theorem State.setSp_cfg (v : Byte) : (s.setSp v).cfg = s.cfg := rfl
@[simp] theorem State.setSp_mem (v : Byte) : (s.setSp v).mem = s.mem := rfl
@[simp] theorem State.setSp_x (v : Byte) : (s.setSp v).x = s.x := rfl
@[simp] theorem State.setSp_sp (v : Byte) : (s.setSp v).sp = v := by simp [State.setSp]
@[simp] theorem State.setSp_pc (v : Byte) : (s.setSp v).pc = s.pc := rfl
@[simp] theorem State.setSp_fl (v : Byte) : (s.setSp v).fl = s.fl := rfl
@[simp] theorem State.setSp_run (v : Byte) : (s.setSp v).run = s.run := rfl
@[simp] theorem State.setSp_out (v : Byte) : (s.setSp v).out = s.out := rfl

/-! ### setFlags -/

@[simp] theorem State.setFlags_cfg (f : Flags) : (s.setFlags f).cfg = s.cfg := rfl
@[simp] theorem State.setFlags_mem (f : Flags) : (s.setFlags f).mem = s.mem := rfl
@[simp] theorem State.setFlags_x (f : Flags) : (s.setFlags f).x = s.x := rfl
@[simp] theorem State.setFlags_sp (f : Flags) : (s.setFlags f).sp = s.sp := rfl
@[simp] theorem State.setFlags_pc (f : Flags) : (s.setFlags f).pc = s.pc := rfl
@[simp] theorem State.setFlags_fl (f : Flags) : (s.setFlags f).fl = f := rfl
@[simp] theorem State.setFlags_run (f : Flags) : (s.setFlags f).run = s.run := rfl
@[simp] theorem State.setFlags_out (f : Flags) : (s.setFlags f).out = s.out := rfl

/-! ### setRun -/

@[simp] theorem State.setRun_cfg (r : Run) : (s.setRun r).cfg = s.cfg := rfl
@[simp] theorem State.setRun_mem (r : Run) : (s.setRun r).mem = s.mem := rfl
@[simp] theorem State.setRun_x (r : Run) : (s.setRun r).x = s.x := rfl
@[simp] theorem State.setRun_sp (r : Run) : (s.setRun r).sp = s.sp := rfl
@[simp] theorem State.setRun_pc (r : Run) : (s.setRun r).pc = s.pc := rfl
@[simp] theorem State.setRun_fl (r : Run) : (s.setRun r).fl = s.fl := rfl
@[simp] theorem State.setRun_run (r : Run) : (s.setRun r).run = r := rfl
@[simp] theorem State.setRun_out (r : Run) : (s.setRun r).out = s.out := rfl

/-! ### emit -/

@[simp] theorem State.emit_cfg (v : Byte) : (s.emit v).cfg = s.cfg := rfl
@[simp] theorem State.emit_mem (v : Byte) : (s.emit v).mem = s.mem := rfl
@[simp] theorem State.emit_x (v : Byte) : (s.emit v).x = s.x := rfl
@[simp] theorem State.emit_sp (v : Byte) : (s.emit v).sp = s.sp := rfl
@[simp] theorem State.emit_pc (v : Byte) : (s.emit v).pc = s.pc := rfl
@[simp] theorem State.emit_fl (v : Byte) : (s.emit v).fl = s.fl := rfl
@[simp] theorem State.emit_run (v : Byte) : (s.emit v).run = s.run := rfl
@[simp] theorem State.emit_out (v : Byte) : (s.emit v).out = s.out ++ [v] := rfl

/-! ### memWrite -/

@[simp] theorem State.memWrite_cfg (a v : Byte) : (s.memWrite a v).cfg = s.cfg := rfl
@[simp] theorem State.memWrite_mem (a v : Byte) : (s.memWrite a v).mem = s.mem.write a.toNat v := rfl
@[simp] theorem State.memWrite_x (a v : Byte) : (s.memWrite a v).x = s.x := rfl
@[simp] theorem State.memWrite_sp (a v : Byte) : (s.memWrite a v).sp = s.sp := rfl
@[simp] theorem State.memWrite_pc (a v : Byte) : (s.memWrite a v).pc = s.pc := rfl
@[simp] theorem State.memWrite_fl (a v : Byte) : (s.memWrite a v).fl = s.fl := rfl
@[simp] theorem State.memWrite_run (a v : Byte) : (s.memWrite a v).run = s.run := rfl
@[simp] theorem State.memWrite_out (a v : Byte) : (s.memWrite a v).out = s.out := rfl

/-! ### raise -/

@[simp] theorem raise_cfg (t : Trap) : (raise s t).cfg = s.cfg := rfl
@[simp] theorem raise_mem (t : Trap) : (raise s t).mem = s.mem := rfl
@[simp] theorem raise_x (t : Trap) : (raise s t).x = s.x := rfl
@[simp] theorem raise_sp (t : Trap) : (raise s t).sp = s.sp := rfl
@[simp] theorem raise_pc (t : Trap) : (raise s t).pc = s.pc := rfl
@[simp] theorem raise_fl (t : Trap) : (raise s t).fl = s.fl := rfl
@[simp] theorem raise_run (t : Trap) : (raise s t).run = .faulted t := rfl
@[simp] theorem raise_out (t : Trap) : (raise s t).out = s.out := rfl

/-! ### commitPush -/

@[simp] theorem commitPush_cfg (n v : Byte) : (commitPush s n v).cfg = s.cfg := rfl
@[simp] theorem commitPush_mem (n v : Byte) : (commitPush s n v).mem = s.mem.write n.toNat v := rfl
@[simp] theorem commitPush_x (n v : Byte) : (commitPush s n v).x = s.x := rfl
@[simp] theorem commitPush_sp (n v : Byte) : (commitPush s n v).sp = n := by
  simp [commitPush]
@[simp] theorem commitPush_pc (n v : Byte) : (commitPush s n v).pc = s.pc := rfl
@[simp] theorem commitPush_fl (n v : Byte) : (commitPush s n v).fl = s.fl := rfl
@[simp] theorem commitPush_run (n v : Byte) : (commitPush s n v).run = s.run := rfl
@[simp] theorem commitPush_out (n v : Byte) : (commitPush s n v).out = s.out := rfl

/-! ### The register file -/

@[simp] theorem State.getReg_setReg_same (i : Reg) (v : Byte) : (s.setReg i v).getReg i = v := by
  simp [State.getReg]

theorem State.getReg_setReg_other {i j : Reg} (h : j ≠ i) (v : Byte) :
    (s.setReg i v).getReg j = s.getReg j := by
  have : i.val ≠ j.val := fun e => h (Fin.ext e.symm)
  simp [State.getReg, this]

@[simp] theorem State.getReg_setPc (j : Reg) (v : Byte) : (s.setPc v).getReg j = s.getReg j := rfl
@[simp] theorem State.getReg_setSp (j : Reg) (v : Byte) : (s.setSp v).getReg j = s.getReg j := rfl
@[simp] theorem State.getReg_setFlags (j : Reg) (f : Flags) : (s.setFlags f).getReg j = s.getReg j := rfl
@[simp] theorem State.getReg_setRun (j : Reg) (r : Run) : (s.setRun r).getReg j = s.getReg j := rfl
@[simp] theorem State.getReg_emit (j : Reg) (v : Byte) : (s.emit v).getReg j = s.getReg j := rfl
@[simp] theorem State.getReg_memWrite (j : Reg) (a v : Byte) : (s.memWrite a v).getReg j = s.getReg j := rfl
@[simp] theorem getReg_raise (j : Reg) (t : Trap) : (raise s t).getReg j = s.getReg j := rfl
@[simp] theorem getReg_commitPush (j : Reg) (n v : Byte) : (commitPush s n v).getReg j = s.getReg j := rfl

end Sys2Proof.Machine
end

