-- ==== Sys2Proof/Laws/Memory.lean ====
section
/-!
SUPPORT. Memory: read after write, a write leaves every other cell alone, every write keeps the canonical
form, and two canonical memories that read alike are equal.
-/
namespace Sys2Proof.Machine

/-- Reading through `consCell` at the new cell, over a memory that does not list it. -/
theorem Memory.read_consCell_same {a : Nat} {v : Byte} {m : Memory} (h : m.read a = memUnlisted) :
    (Memory.consCell a v m).read a = v := by
  unfold Memory.consCell
  split
  · simp_all
  · simp [Memory.read]

theorem Memory.read_consCell_other {a b : Nat} (v : Byte) (m : Memory) (h : b ≠ a) :
    (Memory.consCell a v m).read b = m.read b := by
  unfold Memory.consCell
  split
  · rfl
  · simp [Memory.read, h]

/-- A write leaves every other cell alone, in any memory. -/
theorem Memory.read_write_other (m : Memory) {a b : Nat} (v : Byte) (h : b ≠ a) :
    (m.write a v).read b = m.read b := by
  induction m with
  | nil => simp [Memory.write, Memory.read_consCell_other _ _ h]
  | cons c m ih =>
    obtain ⟨k, w⟩ := c
    unfold Memory.write
    split
    · exact Memory.read_consCell_other _ _ h
    · split
      · subst_vars
        rw [Memory.read_consCell_other _ _ h]
        simp [Memory.read, h]
      · simp only [Memory.read, ih]

theorem Memory.wf_cons {a : Nat} {v : Byte} {m : Memory} :
    Memory.wf ((a, v) :: m) = true ↔
      a < memSize ∧ v ≠ memUnlisted ∧ (∀ c ∈ m, a < c.1) ∧ Memory.wf m = true := by
  simp [Memory.wf, and_assoc]

/-- A cell below every listed one reads as an unlisted cell. -/
theorem Memory.read_below {m : Memory} {a : Nat} (h : ∀ c ∈ m, a < c.1) :
    m.read a = memUnlisted := by
  induction m with
  | nil => rfl
  | cons c m ih =>
    obtain ⟨k, w⟩ := c
    have hk : a < k := h (k, w) (by simp)
    simp [Memory.read, Nat.ne_of_lt hk, ih fun c hc => h c (by simp [hc])]

/-- The address of a listed cell of a canonical memory is below `memSize`. -/
theorem Memory.addr_lt_of_wf {m : Memory} (h : m.wf = true) : ∀ c ∈ m, c.1 < memSize := by
  induction m with
  | nil => simp
  | cons c m ih =>
    obtain ⟨k, w⟩ := c
    obtain ⟨hk, -, -, hm⟩ := Memory.wf_cons.mp h
    intro d hd
    rcases List.mem_cons.mp hd with rfl | hd
    · exact hk
    · exact ih hm d hd

/-- A read after a write to the same cell of a canonical memory gives the value written. -/
theorem Memory.read_write_same {m : Memory} (h : m.wf = true) (a : Nat) (v : Byte) :
    (m.write a v).read a = v := by
  induction m with
  | nil => exact Memory.read_consCell_same rfl
  | cons c m ih =>
    obtain ⟨k, w⟩ := c
    obtain ⟨-, -, hlt, hm⟩ := Memory.wf_cons.mp h
    unfold Memory.write
    split
    · rename_i hak
      refine Memory.read_consCell_same (Memory.read_below fun c hc => ?_)
      rcases List.mem_cons.mp hc with rfl | hc
      · exact hak
      · exact Nat.lt_trans hak (hlt c hc)
    · split
      · subst_vars
        exact Memory.read_consCell_same (Memory.read_below hlt)
      · simp [Memory.read, *]

theorem Memory.mem_consCell {a : Nat} {v : Byte} {m : Memory} {c : Host.Cell}
    (h : c ∈ Memory.consCell a v m) : c.1 = a ∨ c ∈ m := by
  unfold Memory.consCell at h
  split at h
  · exact .inr h
  · rcases List.mem_cons.mp h with rfl | h
    · exact .inl rfl
    · exact .inr h

/-- Every cell of a written memory is at the written address or was there before. -/
theorem Memory.mem_write {m : Memory} {a : Nat} {v : Byte} {c : Host.Cell} (h : c ∈ m.write a v) :
    c.1 = a ∨ c ∈ m := by
  induction m with
  | nil => exact Memory.mem_consCell h
  | cons d m ih =>
    obtain ⟨k, w⟩ := d
    unfold Memory.write at h
    split at h
    · exact Memory.mem_consCell h
    · split at h
      · exact (Memory.mem_consCell h).imp_right fun h => List.mem_cons_of_mem _ h
      · rcases List.mem_cons.mp h with rfl | h
        · exact .inr (by simp)
        · exact (ih h).imp_right fun h => List.mem_cons_of_mem _ h

theorem Memory.consCell_wf {m : Memory} {a : Nat} (v : Byte) (ha : a < memSize) (h : m.wf = true)
    (hlt : ∀ c ∈ m, a < c.1) : (Memory.consCell a v m).wf = true := by
  unfold Memory.consCell
  split
  · exact h
  · exact Memory.wf_cons.mpr ⟨ha, ‹_›, hlt, h⟩

/-- A write below `memSize` keeps the canonical form. -/
theorem Memory.write_wf {m : Memory} (h : m.wf = true) {a : Nat} (ha : a < memSize) (v : Byte) :
    (m.write a v).wf = true := by
  induction m with
  | nil => exact Memory.consCell_wf v ha h (by simp)
  | cons c m ih =>
    obtain ⟨k, w⟩ := c
    obtain ⟨hk, hw, hlt, hm⟩ := Memory.wf_cons.mp h
    unfold Memory.write
    split
    · rename_i hak
      refine Memory.consCell_wf v ha h fun c hc => ?_
      rcases List.mem_cons.mp hc with rfl | hc
      · exact hak
      · exact Nat.lt_trans hak (hlt c hc)
    · split
      · subst_vars
        exact Memory.consCell_wf v ha hm hlt
      · refine Memory.wf_cons.mpr ⟨hk, hw, fun c hc => ?_, ih hm⟩
        rcases Memory.mem_write hc with hc | hc
        · omega
        · exact hlt c hc

/-- Two canonical memories that read alike everywhere are the same data. -/
theorem Memory.ext_of_wf {m n : Memory} (hm : m.wf = true) (hn : n.wf = true)
    (h : ∀ a, m.read a = n.read a) : m = n := by
  induction m generalizing n with
  | nil =>
    cases n with
    | nil => rfl
    | cons c n =>
      obtain ⟨k, w⟩ := c
      obtain ⟨-, hw, -, -⟩ := Memory.wf_cons.mp hn
      exact absurd (by simpa [Memory.read] using (h k).symm) hw
  | cons c m ih =>
    obtain ⟨k, w⟩ := c
    obtain ⟨-, hw, hlt, hm'⟩ := Memory.wf_cons.mp hm
    cases n with
    | nil => exact absurd (by simpa [Memory.read] using h k) hw
    | cons d n =>
      obtain ⟨j, u⟩ := d
      obtain ⟨-, hu, hlt', hn'⟩ := Memory.wf_cons.mp hn
      have hkj : k = j := by
        rcases Nat.lt_trichotomy k j with hk | hk | hk
        · have := h k
          rw [Memory.read_below (m := (j, u) :: n) (a := k)] at this
          · exact absurd (by simpa [Memory.read] using this) hw
          · intro c hc
            rcases List.mem_cons.mp hc with rfl | hc
            · exact hk
            · exact Nat.lt_trans hk (hlt' c hc)
        · exact hk
        · have := h j
          rw [Memory.read_below (m := (k, w) :: m) (a := j)] at this
          · exact absurd (by simpa [Memory.read] using this.symm) hu
          · intro c hc
            rcases List.mem_cons.mp hc with rfl | hc
            · exact hk
            · exact Nat.lt_trans hk (hlt c hc)
      subst hkj
      have hwu : w = u := by simpa [Memory.read] using h k
      subst hwu
      refine congrArg _ (ih hm' hn' fun a => ?_)
      by_cases hak : a = k
      · subst hak
        rw [Memory.read_below hlt, Memory.read_below hlt']
      · simpa [Memory.read, hak] using h a

/-- A byte is an address below `memSize`. -/
theorem byte_lt_memSize (a : Byte) : a.toNat < memSize := by
  have := a.isLt
  simp only [memSize]
  omega

/-- `MemWrite` keeps the canonical form. -/
theorem State.memWrite_wf {s : State} (h : s.mem.wf = true) (a v : Byte) :
    (s.memWrite a v).mem.wf = true := Memory.write_wf h (byte_lt_memSize a) v

/-- The commits of a push keep the canonical form. -/
theorem commitPush_wf {s : State} (h : s.mem.wf = true) (n v : Byte) :
    (commitPush s n v).mem.wf = true := State.memWrite_wf h n v

theorem placeByte_wf {s : State} (h : s.mem.wf = true) (k : Nat) (b : Byte) :
    (placeByte s k b).mem.wf = true := by
  unfold placeByte
  split
  · exact State.memWrite_wf h _ _
  · exact h

/-- Placing an instruction's bytes keeps the canonical form. -/
theorem placeBytes_wf {s : State} (h : s.mem.wf = true) (k : Nat) (bs : List Byte) :
    (placeBytes k bs s).mem.wf = true := by
  induction bs generalizing s k with
  | nil => exact h
  | cons b bs ih => exact ih (placeByte_wf h k b) _

@[simp] theorem State.memRead_def (s : State) (a : Byte) : s.memRead a = s.mem.read a.toNat := rfl

end Sys2Proof.Machine
end

