-- ==== Sys2Proof/Laws/Ops.lean ====
section
/-!
SUPPORT. What each shared operation can do, said once: checks and faults, `AddrOf`, the sequential next
`pc`, the two stack addresses, the ALU and the branch.
-/
namespace Sys2Proof.Machine

@[simp] theorem checked_ok {α : Type} (s : State) (v : α) (k : α → Result) :
    checked s (.ok v) k = k v := rfl

@[simp] theorem checked_error {α : Type} (s : State) (t : Trap) (k : α → Result) :
    checked s (.error t) k = .next (raise s t) := rfl

/-- What `checked` can answer. -/
theorem checked_cases {α : Type} {s t : State} {r : Except Trap α} {k : α → Result}
    (h : checked s r k = .next t) :
    (∃ v, r = .ok v ∧ k v = .next t) ∨ (∃ e, r = .error e ∧ t = raise s e) := by
  cases r with
  | ok v => exact .inl ⟨v, rfl, h⟩
  | error e => exact .inr ⟨e, rfl, by simpa using h.symm⟩

/-- Truncation of a natural number. -/
@[simp] theorem trunc8_natCast (n : Nat) : trunc8 n = BitVec.ofNat 8 n := by
  simp [trunc8]

/-- ADD's and MUL's results under `OVERFLOW = wraparound`. -/
theorem aluFit_wraparound {c : Config} (h : c.overflow = .wraparound) (n : Nat) :
    aluFit c n = BitVec.ofNat 8 n := by
  apply BitVec.eq_of_toNat_eq
  simp [aluFit, h]

/-- ADD's and MUL's results under `OVERFLOW = saturation`. -/
theorem aluFit_saturation {c : Config} (h : c.overflow = .saturation) (n : Nat) :
    aluFit c n = BitVec.ofNat 8 (min n 255) := by
  simp [aluFit, h]

/-- A result that fits in a register is kept whole under either value of `OVERFLOW`. -/
theorem aluFit_inRange (c : Config) {n : Nat} (h : n ≤ 255) : aluFit c n = BitVec.ofNat 8 n := by
  cases ho : c.overflow with
  | wraparound => exact aluFit_wraparound ho n
  | saturation => rw [aluFit_saturation ho, Nat.min_eq_left h]

theorem isAddress_iff (v : Int) : isAddress v = true ↔ 0 ≤ v ∧ v < 256 := by
  cases v with
  | ofNat n =>
    rw [isAddress, decide_eq_true_iff, memSize]
    simp
  | negSucc n => simp [isAddress]

/-- `AddrOf` of an address that exists. -/
theorem addrOf_inRange (p : RangePolicy) {v : Int} (c : Cause) (h : 0 ≤ v) (h' : v < 256) :
    addrOf p v c = .ok (trunc8 v) := by
  simp [addrOf, (isAddress_iff v).mpr ⟨h, h'⟩]

/-- `AddrOf` under `wrap`. -/
theorem addrOf_wrap (v : Int) (c : Cause) : addrOf .wrap v c = .ok (trunc8 v) := by
  simp [addrOf]

/-- `AddrOf` of an address that does not exist, under `fault`. -/
theorem addrOf_outOfRange {v : Int} (c : Cause) (h : v < 0 ∨ 256 ≤ v) :
    addrOf .fault v c = .error ⟨c, v⟩ := by
  have : ¬isAddress v = true := by rw [isAddress_iff]; omega
  simp [addrOf, this]

/-- Everything `AddrOf` can answer. -/
theorem addrOf_cases (p : RangePolicy) (v : Int) (c : Cause) :
    (addrOf p v c = .ok (trunc8 v) ∧ (p = .wrap ∨ (0 ≤ v ∧ v < 256))) ∨
    (addrOf p v c = .error ⟨c, v⟩ ∧ p = .fault ∧ (v < 0 ∨ 256 ≤ v)) := by
  cases p with
  | wrap => exact .inl ⟨addrOf_wrap v c, .inl rfl⟩
  | fault =>
    by_cases h : 0 ≤ v ∧ v < 256
    · exact .inl ⟨addrOf_inRange _ c h.1 h.2, .inr h⟩
    · have h' : v < 0 ∨ 256 ≤ v := by omega
      exact .inr ⟨addrOf_outOfRange c h', rfl, h'⟩

theorem trunc8_pc_add (b : Byte) (n : Nat) : trunc8 ((b.toNat : Int) + n) = b + BitVec.ofNat 8 n := by
  rw [← Int.natCast_add, trunc8_natCast]
  apply BitVec.eq_of_toNat_eq
  simp [BitVec.toNat_add]

theorem trunc8_sp_sub (b : Byte) : trunc8 ((b.toNat : Int) - 1) = b - 1#8 := by
  have hb := b.isLt
  apply BitVec.eq_of_toNat_eq
  simp only [trunc8, BitVec.toNat_ofInt, BitVec.toNat_sub]
  norm_num
  omega

/-- The sequential next `pc`: everything it can answer. -/
theorem nextPc_cases (s : State) (n : Nat) :
    (nextPc s n = .ok (s.pc + BitVec.ofNat 8 n) ∧
      (s.cfg.rangePolicy = .wrap ∨ s.pc.toNat + n ≤ 255)) ∨
    (nextPc s n = .error ⟨.pcRange, (s.pc.toNat : Int) + n⟩ ∧ s.cfg.rangePolicy = .fault ∧
      255 < s.pc.toNat + n) := by
  rcases addrOf_cases s.cfg.rangePolicy ((s.pc.toNat : Int) + n) .pcRange with ⟨h, h'⟩ | ⟨h, hp, h'⟩
  · exact .inl ⟨by rw [nextPc, h, trunc8_pc_add], h'.imp_right fun h' => by omega⟩
  · exact .inr ⟨h, hp, by omega⟩

/-- The sequential next `pc` where it exists or wraps. -/
theorem nextPc_ok {s : State} {n : Nat} (h : s.cfg.rangePolicy = .wrap ∨ s.pc.toNat + n ≤ 255) :
    nextPc s n = .ok (s.pc + BitVec.ofNat 8 n) := by
  rcases nextPc_cases s n with ⟨e, -⟩ | ⟨-, hp, hr⟩
  · exact e
  · rcases h with h | h
    · simp [h] at hp
    · omega

/-- The address of an instruction byte: everything it can answer. -/
theorem fetchAddr_cases (s : State) (k : Nat) :
    (fetchAddr s k = .ok (s.pc + BitVec.ofNat 8 k) ∧
      (s.cfg.rangePolicy = .wrap ∨ s.pc.toNat + k ≤ 255)) ∨
    (fetchAddr s k = .error ⟨.operandFetchRange, (s.pc.toNat : Int) + k⟩ ∧
      s.cfg.rangePolicy = .fault ∧ 255 < s.pc.toNat + k) := by
  rcases addrOf_cases s.cfg.rangePolicy ((s.pc.toNat : Int) + k) .operandFetchRange
    with ⟨h, h'⟩ | ⟨h, hp, h'⟩
  · exact .inl ⟨by rw [fetchAddr, h, trunc8_pc_add], h'.imp_right fun h' => by omega⟩
  · exact .inr ⟨h, hp, by omega⟩

/-- The address of a push: everything it can answer. -/
theorem pushAddr_cases (s : State) :
    (pushAddr s = .ok (s.sp - 1#8) ∧ (s.cfg.rangePolicy = .wrap ∨ 1 ≤ s.sp.toNat)) ∨
    (pushAddr s = .error ⟨.stackRange, -1⟩ ∧ s.cfg.rangePolicy = .fault ∧ s.sp = 0#8) := by
  have hs := s.sp.isLt
  rcases addrOf_cases s.cfg.rangePolicy ((s.sp.toNat : Int) - 1) .stackRange with ⟨h, h'⟩ | ⟨h, hp, h'⟩
  · exact .inl ⟨by rw [pushAddr, h, trunc8_sp_sub], h'.imp_right fun h' => by omega⟩
  · have h0 : s.sp.toNat = 0 := by omega
    refine .inr ⟨?_, hp, BitVec.eq_of_toNat_eq (by simp [h0])⟩
    rw [pushAddr, h, h0]
    rfl

/-- The address of a push where it exists or wraps. -/
theorem pushAddr_ok {s : State} (h : s.cfg.rangePolicy = .wrap ∨ 1 ≤ s.sp.toNat) :
    pushAddr s = .ok (s.sp - 1#8) := by
  rcases pushAddr_cases s with ⟨e, -⟩ | ⟨-, hp, hz⟩
  · exact e
  · rcases h with h | h
    · simp [h] at hp
    · simp [hz] at h

/-- The stack pointer after a pop: everything it can answer. -/
theorem popAddr_cases (s : State) :
    (popAddr s = .ok (s.sp + 1#8) ∧ (s.cfg.rangePolicy = .wrap ∨ s.sp.toNat ≤ 254)) ∨
    (popAddr s = .error ⟨.stackRange, 256⟩ ∧ s.cfg.rangePolicy = .fault ∧ s.sp = 255#8) := by
  have hs := s.sp.isLt
  rcases addrOf_cases s.cfg.rangePolicy ((s.sp.toNat : Int) + 1) .stackRange with ⟨h, h'⟩ | ⟨h, hp, h'⟩
  · exact .inl ⟨by rw [popAddr, h]; exact congrArg _ (trunc8_pc_add s.sp 1), h'.imp_right fun h' => by omega⟩
  · have h0 : s.sp.toNat = 255 := by omega
    refine .inr ⟨?_, hp, BitVec.eq_of_toNat_eq (by simp [h0])⟩
    rw [popAddr, h, h0]
    rfl

/-- The stack pointer after a pop where it exists or wraps. -/
theorem popAddr_ok {s : State} (h : s.cfg.rangePolicy = .wrap ∨ s.sp.toNat ≤ 254) :
    popAddr s = .ok (s.sp + 1#8) := by
  rcases popAddr_cases s with ⟨e, -⟩ | ⟨-, hp, hz⟩
  · exact e
  · rcases h with h | h
    · simp [h] at hp
    · simp [hz] at h

/-- Everything the handler of an ALU instruction can do with a legal selector. -/
theorem aluInstr_cases {op : AluOp} {a b : Reg} {s t : State} (h : aluInstr op a b s = .next t) :
    (∃ u, aluApply op a b s = .ok u ∧ t = u.setPc (s.pc + 3#8) ∧
      (s.cfg.rangePolicy = .wrap ∨ s.pc.toNat + 3 ≤ 255)) ∨
    (t = raise s ⟨.pcRange, (s.pc.toNat : Int) + 3⟩ ∧ s.cfg.rangePolicy = .fault ∧
      255 < s.pc.toNat + 3) ∨
    (∃ n, op = .other n ∧ t = raise s ⟨.aluUnsupported, n⟩) := by
  unfold aluInstr at h
  rcases nextPc_cases s 3 with ⟨hn, hr⟩ | ⟨hn, hp, hr⟩
  · rw [hn, checked_ok] at h
    rcases checked_cases h with ⟨u, hu, ht⟩ | ⟨e, he, rfl⟩
    · exact .inl ⟨u, hu, by simpa using ht.symm, hr⟩
    · cases op with
      | add => simp [aluApply] at he
      | mul => simp [aluApply] at he
      | cmp => simp [aluApply] at he
      | other n =>
        simp only [aluApply, Except.error.injEq] at he
        exact .inr (.inr ⟨n, rfl, by rw [← he]⟩)
  · rw [hn, checked_error] at h
    exact .inr (.inl ⟨by simpa using h.symm, hp, hr⟩)

/-- Everything a conditional branch can do. -/
theorem branch_cases {taken : Bool} {a : Reg} {s t : State} (h : branch taken a s = .next t) :
    (taken = true ∧ t = s.setPc (s.getReg a)) ∨
    (taken = false ∧ t = s.setPc (s.pc + 2#8) ∧
      (s.cfg.rangePolicy = .wrap ∨ s.pc.toNat + 2 ≤ 255)) ∨
    (taken = false ∧ t = raise s ⟨.pcRange, (s.pc.toNat : Int) + 2⟩ ∧ s.cfg.rangePolicy = .fault ∧
      255 < s.pc.toNat + 2) := by
  unfold branch at h
  cases taken with
  | true => exact .inl ⟨rfl, by simpa using h.symm⟩
  | false =>
    rcases nextPc_cases s 2 with ⟨hn, hr⟩ | ⟨hn, hp, hr⟩
    · exact .inr (.inl ⟨rfl, by simpa [hn] using h.symm, hr⟩)
    · exact .inr (.inr ⟨rfl, by simpa [hn] using h.symm, hp, hr⟩)

end Sys2Proof.Machine
end

