-- ==== Sys2Proof/Laws/Decode.lean ====
section
/-!
SUPPORT. The dispatch table, register selection, the operand decoders and the fetch window: what each can
answer, said once.
-/
namespace Sys2Proof

/-! ### The dispatch table -/

theorem mem_handlers (h : Handler) : h ∈ handlers := by
  cases h <;> decide

/-- A handler's opcode byte is one of the thirteen. -/
theorem Opcodes.ofHandler_mem (o : Opcodes) (h : Handler) : o.ofHandler h ∈ o.bytes := by
  cases h <;> simp [Opcodes.ofHandler, Opcodes.bytes]

theorem Opcodes.hlt_mem (o : Opcodes) : o.hlt ∈ o.bytes := by
  simp [Opcodes.bytes]

/-- Every opcode byte is HLT's or a handler's. -/
theorem Opcodes.mem_bytes {o : Opcodes} {b : Byte} :
    b ∈ o.bytes ↔ b = o.hlt ∨ ∃ h, o.ofHandler h = b := by
  constructor
  · intro hb
    simp only [Opcodes.bytes, List.mem_cons, List.not_mem_nil, or_false] at hb
    rcases hb with h | h | h | h | h | h | h | h | h | h | h | h | h
    · exact .inr ⟨.ldi, h.symm⟩
    · exact .inr ⟨.prn, h.symm⟩
    · exact .inr ⟨.mul, h.symm⟩
    · exact .inr ⟨.add, h.symm⟩
    · exact .inr ⟨.push, h.symm⟩
    · exact .inr ⟨.pop, h.symm⟩
    · exact .inr ⟨.call, h.symm⟩
    · exact .inr ⟨.ret, h.symm⟩
    · exact .inr ⟨.cmp, h.symm⟩
    · exact .inr ⟨.jmp, h.symm⟩
    · exact .inr ⟨.jeq, h.symm⟩
    · exact .inr ⟨.jne, h.symm⟩
    · exact .inl h
  · rintro (rfl | ⟨h, rfl⟩)
    · exact o.hlt_mem
    · exact o.ofHandler_mem h

/-- The opcode bytes are the handlers' and then HLT's. -/
theorem Opcodes.bytes_eq (o : Opcodes) : o.bytes = handlers.map o.ofHandler ++ [o.hlt] := rfl

/-- With distinct opcode bytes no handler has HLT's. -/
theorem Opcodes.ofHandler_ne_hlt {o : Opcodes} (hd : o.Distinct) (h : Handler) :
    o.ofHandler h ≠ o.hlt := by
  rw [Opcodes.Distinct, Opcodes.bytes_eq, List.nodup_append] at hd
  exact hd.2.2 _ (List.mem_map_of_mem (mem_handlers h)) _ (by simp)

/-- With distinct opcode bytes the handler is determined by its byte. -/
theorem Opcodes.ofHandler_injective {o : Opcodes} (hd : o.Distinct) {g h : Handler}
    (e : o.ofHandler g = o.ofHandler h) : g = h := by
  rw [Opcodes.Distinct, Opcodes.bytes_eq, List.nodup_append] at hd
  exact List.inj_on_of_nodup_map hd.1 (mem_handlers g) (mem_handlers h) e

/-- What the table answers is a handler of that byte. -/
theorem ofHandler_of_lookup {o : Opcodes} {b : Byte} {h : Handler} (e : lookup o b = some h) :
    o.ofHandler h = b := by
  simpa using List.find?_some e

/-- With distinct opcode bytes the table maps each handler's byte to it (rule R114). -/
theorem lookup_ofHandler {o : Opcodes} (hd : o.Distinct) (h : Handler) :
    lookup o (o.ofHandler h) = some h := by
  cases e : lookup o (o.ofHandler h) with
  | none => simpa using List.find?_eq_none.mp e h (mem_handlers h)
  | some g => rw [Opcodes.ofHandler_injective hd (ofHandler_of_lookup e)]

/-- The table answers none exactly where no handler has the byte. -/
theorem lookup_eq_none {o : Opcodes} {b : Byte} :
    lookup o b = none ↔ ∀ h, o.ofHandler h ≠ b := by
  simp [lookup, List.find?_eq_none, mem_handlers]

theorem lookup_of_not_mem {o : Opcodes} {b : Byte} (h : b ∉ o.bytes) : lookup o b = none :=
  lookup_eq_none.mpr fun g e => h (e ▸ o.ofHandler_mem g)

/-! ### Register selection -/

theorem regByte_toNat (r : Reg) : (regByte r).toNat = r.val := by
  have := r.isLt
  simp only [regByte, BitVec.toNat_ofNat]
  omega

/-- The byte that names a register selects it, under either policy. -/
@[simp] theorem selectReg_regByte (p : RangePolicy) (r : Reg) : selectReg p (regByte r) = .ok r := by
  have h : (regByte r).toNat < 8 := by rw [regByte_toNat]; exact r.isLt
  simp [selectReg, regSel, regByte_toNat]

/-- Everything register selection can answer. -/
theorem selectReg_cases (p : RangePolicy) (b : Byte) :
    (selectReg p b = .ok (Fin.ofNat 8 b.toNat) ∧ (p = .wrap ∨ b.toNat < 8)) ∨
    (selectReg p b = .error (.registerRange b) ∧ p = .fault ∧ 8 ≤ b.toNat) := by
  by_cases h : b.toNat < 8
  · refine .inl ⟨?_, .inr h⟩
    simp only [selectReg, regSel, h, dite_true]
    exact congrArg _ (Fin.ext (Nat.mod_eq_of_lt h).symm)
  · cases p with
    | wrap =>
      refine .inl ⟨?_, .inl rfl⟩
      simp only [selectReg, regSel, h, dite_false]
      rfl
    | fault => exact .inr ⟨by simp [selectReg, regSel, h], rfl, by omega⟩

/-- Under `fault` a selected register's byte is the one the encoder writes. -/
theorem regByte_of_selectReg {b : Byte} {r : Reg} (e : selectReg .fault b = .ok r) : regByte r = b := by
  rcases selectReg_cases .fault b with ⟨h, h'⟩ | ⟨h, -, -⟩
  · rw [h] at e
    obtain rfl : Fin.ofNat 8 b.toNat = r := by simpa using e
    have hb : b.toNat < 8 := by simpa using h'
    apply BitVec.eq_of_toNat_eq
    rw [regByte_toNat, Fin.val_ofNat]
    omega
  · simp [h] at e

/-! ### The operand decoders -/

/-- What a successful one-register decode read. -/
theorem decodeR_ok {p : RangePolicy} {mk : Reg → Instr} {bs rest : List Byte} {i : Instr}
    (h : decodeR p mk bs = .ok (i, rest)) :
    ∃ o1 a, bs = o1 :: rest ∧ selectReg p o1 = .ok a ∧ i = mk a := by
  unfold decodeR at h
  split at h
  · split at h
    · simp only [Except.ok.injEq, Prod.mk.injEq] at h
      exact ⟨_, _, by rw [h.2], ‹_›, h.1.symm⟩
    · cases h
  · cases h

/-- What a successful two-register decode read. -/
theorem decodeRR_ok {p : RangePolicy} {mk : Reg → Reg → Instr} {bs rest : List Byte} {i : Instr}
    (h : decodeRR p mk bs = .ok (i, rest)) :
    ∃ o1 o2 a b, bs = o1 :: o2 :: rest ∧ selectReg p o1 = .ok a ∧ selectReg p o2 = .ok b ∧
      i = mk a b := by
  unfold decodeRR at h
  split at h
  · split at h
    · cases h
    · split at h
      · simp only [Except.ok.injEq, Prod.mk.injEq] at h
        exact ⟨_, _, _, _, by rw [h.2], ‹_›, ‹_›, h.1.symm⟩
      · cases h
  · cases h
  · cases h

/-- What a successful decode of LDI's operands read. -/
theorem decodeRI_ok {p : RangePolicy} {mk : Reg → Byte → Instr} {bs rest : List Byte} {i : Instr}
    (h : decodeRI p mk bs = .ok (i, rest)) :
    ∃ o1 imm a, bs = o1 :: imm :: rest ∧ selectReg p o1 = .ok a ∧ i = mk a imm := by
  unfold decodeRI at h
  split at h
  · split at h
    · simp only [Except.ok.injEq, Prod.mk.injEq] at h
      exact ⟨_, _, _, by rw [h.2], ‹_›, h.1.symm⟩
    · cases h
  · cases h
  · cases h

/-! ### The decoder by opcode byte -/

theorem decode_hlt (p : RangePolicy) (o : Opcodes) (bs : List Byte) :
    decode p o (o.hlt :: bs) = .ok (.hlt, bs) := by
  simp [decode]

theorem decode_ofHandler {o : Opcodes} (hd : o.Distinct) (p : RangePolicy) (h : Handler)
    (bs : List Byte) : decode p o (o.ofHandler h :: bs) = decodeOperands p h bs := by
  simp [decode, Opcodes.ofHandler_ne_hlt hd h, lookup_ofHandler hd h]

theorem decode_unk {o : Opcodes} {op : Byte} (h : op ∉ o.bytes) (p : RangePolicy) (bs : List Byte) :
    decode p o (op :: bs) = .ok (.unk op, bs) := by
  have : op ≠ o.hlt := fun e => h (e ▸ o.hlt_mem)
  simp [decode, this, lookup_of_not_mem h]

/-- Everything the decoder can do with an opcode byte. -/
theorem decode_cases (p : RangePolicy) (o : Opcodes) (op : Byte) (bs : List Byte) :
    (op = o.hlt ∧ decode p o (op :: bs) = .ok (.hlt, bs)) ∨
    (∃ h, op = o.ofHandler h ∧ op ≠ o.hlt ∧ decode p o (op :: bs) = decodeOperands p h bs) ∨
    (op ∉ o.bytes ∧ decode p o (op :: bs) = .ok (.unk op, bs)) := by
  by_cases hh : op = o.hlt
  · exact .inl ⟨hh, by simp [decode, hh]⟩
  · cases e : lookup o op with
    | some h => exact .inr (.inl ⟨h, (ofHandler_of_lookup e).symm, hh, by simp [decode, hh, e]⟩)
    | none =>
      have : op ∉ o.bytes := by
        rw [Opcodes.mem_bytes]
        rintro (h | ⟨h, e'⟩)
        · exact hh h
        · exact lookup_eq_none.mp e h e'
      exact .inr (.inr ⟨this, decode_unk this p bs⟩)

end Sys2Proof

namespace Sys2Proof.Machine

/-! ### The fetch window -/

/-- The byte `k` cells after `pc`, mod 256. -/
def operandByte (s : State) (k : Nat) : Byte := s.mem.read ((s.pc.toNat + k) % 256)

theorem read_pc_add (s : State) (k : Nat) :
    s.memRead (s.pc + BitVec.ofNat 8 k) = operandByte s k := by
  simp [operandByte, BitVec.toNat_add]

theorem byteAt_fetchAddr_inRange {s : State} {k : Nat}
    (h : s.cfg.rangePolicy = .wrap ∨ s.pc.toNat + k ≤ 255) :
    byteAt s (fetchAddr s k) = some (operandByte s k) := by
  rcases fetchAddr_cases s k with ⟨e, -⟩ | ⟨-, hp, hr⟩
  · rw [e, byteAt, read_pc_add]
  · rcases h with h | h
    · simp [h] at hp
    · omega

theorem byteAt_fetchAddr_outOfRange {s : State} {k : Nat} (hp : s.cfg.rangePolicy = .fault)
    (h : 255 < s.pc.toNat + k) : byteAt s (fetchAddr s k) = none := by
  rcases fetchAddr_cases s k with ⟨-, h' | h'⟩ | ⟨e, -, -⟩
  · simp [hp] at h'
  · omega
  · rw [e, byteAt]

/-- The window where all three byte addresses exist. -/
theorem fetchWindow_three {s : State} (h : s.cfg.rangePolicy = .wrap ∨ s.pc.toNat + 2 ≤ 255) :
    fetchWindow s = [operandByte s 0, operandByte s 1, operandByte s 2] := by
  have h0 := byteAt_fetchAddr_inRange (k := 0) (h.imp_right (by omega))
  have h1 := byteAt_fetchAddr_inRange (k := 1) (h.imp_right (by omega))
  have h2 := byteAt_fetchAddr_inRange h
  simp [fetchWindow, maxInstrLength, List.range_succ, h0, h1, h2]

/-- The window one byte below the top of memory, under `fault`. -/
theorem fetchWindow_two {s : State} (hp : s.cfg.rangePolicy = .fault) (h : s.pc.toNat = 254) :
    fetchWindow s = [operandByte s 0, operandByte s 1] := by
  have h0 := byteAt_fetchAddr_inRange (s := s) (k := 0) (by omega)
  have h1 := byteAt_fetchAddr_inRange (s := s) (k := 1) (by omega)
  have h2 := byteAt_fetchAddr_outOfRange (k := 2) hp (by omega)
  simp [fetchWindow, maxInstrLength, List.range_succ, h0, h1, h2]

/-- The window at the top of memory, under `fault`. -/
theorem fetchWindow_one {s : State} (hp : s.cfg.rangePolicy = .fault) (h : s.pc.toNat = 255) :
    fetchWindow s = [operandByte s 0] := by
  have h0 := byteAt_fetchAddr_inRange (s := s) (k := 0) (by omega)
  have h1 := byteAt_fetchAddr_outOfRange (k := 1) hp (by omega)
  have h2 := byteAt_fetchAddr_outOfRange (k := 2) hp (by omega)
  simp [fetchWindow, maxInstrLength, List.range_succ, h0, h1, h2]

/-- The three windows there are. -/
theorem fetchWindow_cases (s : State) :
    ((s.cfg.rangePolicy = .wrap ∨ s.pc.toNat + 2 ≤ 255) ∧
      fetchWindow s = [operandByte s 0, operandByte s 1, operandByte s 2]) ∨
    (s.cfg.rangePolicy = .fault ∧ s.pc.toNat = 254 ∧
      fetchWindow s = [operandByte s 0, operandByte s 1]) ∨
    (s.cfg.rangePolicy = .fault ∧ s.pc.toNat = 255 ∧ fetchWindow s = [operandByte s 0]) := by
  have hlt := s.pc.isLt
  by_cases h : s.pc.toNat + 2 ≤ 255
  · exact .inl ⟨.inr h, fetchWindow_three (.inr h)⟩
  · cases hp : s.cfg.rangePolicy with
    | wrap => exact .inl ⟨.inl rfl, fetchWindow_three (.inl hp)⟩
    | fault =>
      by_cases h4 : s.pc.toNat = 254
      · exact .inr (.inl ⟨rfl, h4, fetchWindow_two hp h4⟩)
      · have h5 : s.pc.toNat = 255 := by omega
        exact .inr (.inr ⟨rfl, h5, fetchWindow_one hp h5⟩)

end Sys2Proof.Machine
end

