-- ==== Sys2Proof/Laws/Exec.lean ====
section
/-!
SUPPORT. What each meaning can do, said once: the next states it can answer, with the condition of each.
No meaning answers anything else (`exec_next`).
-/
namespace Sys2Proof.Machine

/-- LDI either loads the immediate or faults at the top of memory. -/
theorem execLdi_cases {a : Reg} {imm : Byte} {s t : State} (h : execLdi a imm s = .next t) :
    (t = (s.setReg a imm).setPc (s.pc + 3#8) ∧
      (s.cfg.rangePolicy = .wrap ∨ s.pc.toNat + 3 ≤ 255)) ∨
    (t = raise s ⟨.pcRange, (s.pc.toNat : Int) + 3⟩ ∧ s.cfg.rangePolicy = .fault ∧
      255 < s.pc.toNat + 3) := by
  unfold execLdi at h
  rcases nextPc_cases s 3 with ⟨hn, hr⟩ | ⟨hn, hp, hr⟩
  · exact .inl ⟨by simpa [hn] using h.symm, hr⟩
  · exact .inr ⟨by simpa [hn] using h.symm, hp, hr⟩

/-- PRN either emits the register or faults at the top of memory. -/
theorem execPrn_cases {a : Reg} {s t : State} (h : execPrn a s = .next t) :
    (t = (s.emit (s.getReg a)).setPc (s.pc + 2#8) ∧
      (s.cfg.rangePolicy = .wrap ∨ s.pc.toNat + 2 ≤ 255)) ∨
    (t = raise s ⟨.pcRange, (s.pc.toNat : Int) + 2⟩ ∧ s.cfg.rangePolicy = .fault ∧
      255 < s.pc.toNat + 2) := by
  unfold execPrn at h
  rcases nextPc_cases s 2 with ⟨hn, hr⟩ | ⟨hn, hp, hr⟩
  · exact .inl ⟨by simpa [hn] using h.symm, hr⟩
  · exact .inr ⟨by simpa [hn] using h.symm, hp, hr⟩

/-- ADD either adds or faults at the top of memory. -/
theorem execAdd_cases {a b : Reg} {s t : State} (h : execAdd a b s = .next t) :
    (t = (s.setReg a (aluSum s.cfg (s.getReg a) (s.getReg b))).setPc (s.pc + 3#8) ∧
      (s.cfg.rangePolicy = .wrap ∨ s.pc.toNat + 3 ≤ 255)) ∨
    (t = raise s ⟨.pcRange, (s.pc.toNat : Int) + 3⟩ ∧ s.cfg.rangePolicy = .fault ∧
      255 < s.pc.toNat + 3) := by
  rcases aluInstr_cases h with ⟨u, hu, rfl, hr⟩ | h | ⟨n, hn, -⟩
  · simp only [aluApply, Except.ok.injEq] at hu
    exact .inl ⟨by rw [← hu], hr⟩
  · exact .inr h
  · cases hn

/-- MUL either multiplies or faults at the top of memory. -/
theorem execMul_cases {a b : Reg} {s t : State} (h : execMul a b s = .next t) :
    (t = (s.setReg a (aluProduct s.cfg (s.getReg a) (s.getReg b))).setPc (s.pc + 3#8) ∧
      (s.cfg.rangePolicy = .wrap ∨ s.pc.toNat + 3 ≤ 255)) ∨
    (t = raise s ⟨.pcRange, (s.pc.toNat : Int) + 3⟩ ∧ s.cfg.rangePolicy = .fault ∧
      255 < s.pc.toNat + 3) := by
  rcases aluInstr_cases h with ⟨u, hu, rfl, hr⟩ | h | ⟨n, hn, -⟩
  · simp only [aluApply, Except.ok.injEq] at hu
    exact .inl ⟨by rw [← hu], hr⟩
  · exact .inr h
  · cases hn

/-- CMP either writes the three flags or faults at the top of memory. -/
theorem execCmp_cases {a b : Reg} {s t : State} (h : execCmp a b s = .next t) :
    (t = (s.setFlags (cmpFlags (s.getReg a) (s.getReg b))).setPc (s.pc + 3#8) ∧
      (s.cfg.rangePolicy = .wrap ∨ s.pc.toNat + 3 ≤ 255)) ∨
    (t = raise s ⟨.pcRange, (s.pc.toNat : Int) + 3⟩ ∧ s.cfg.rangePolicy = .fault ∧
      255 < s.pc.toNat + 3) := by
  rcases aluInstr_cases h with ⟨u, hu, rfl, hr⟩ | h | ⟨n, hn, -⟩
  · simp only [aluApply, Except.ok.injEq] at hu
    exact .inl ⟨by rw [← hu], hr⟩
  · exact .inr h
  · cases hn

/-- PUSH either stores the register below the stack's top, or takes one of its two faults, the stack's
first. -/
theorem execPush_cases {a : Reg} {s t : State} (h : execPush a s = .next t) :
    (t = (commitPush s (s.sp - 1#8) (s.getReg a)).setPc (s.pc + 2#8) ∧
      (s.cfg.rangePolicy = .wrap ∨ (1 ≤ s.sp.toNat ∧ s.pc.toNat + 2 ≤ 255))) ∨
    (t = raise s ⟨.stackRange, -1⟩ ∧ s.cfg.rangePolicy = .fault ∧ s.sp = 0#8) ∨
    (t = raise s ⟨.pcRange, (s.pc.toNat : Int) + 2⟩ ∧ s.cfg.rangePolicy = .fault ∧
      1 ≤ s.sp.toNat ∧ 255 < s.pc.toNat + 2) := by
  unfold execPush at h
  rcases pushAddr_cases s with ⟨hs, hr⟩ | ⟨hs, hp, hz⟩
  · rcases nextPc_cases s 2 with ⟨hn, hr'⟩ | ⟨hn, hp, hr'⟩
    · refine .inl ⟨by simpa [hs, hn] using h.symm, ?_⟩
      rcases hr with hr | hr
      · exact .inl hr
      · exact hr'.imp_right fun hr' => ⟨hr, hr'⟩
    · exact .inr (.inr ⟨by simpa [hs, hn] using h.symm, hp, hr.resolve_left (by simp [hp]), hr'⟩)
  · exact .inr (.inl ⟨by simpa [hs] using h.symm, hp, hz⟩)

/-- POP either loads the stack's top, or takes one of its two faults, the stack's first. -/
theorem execPop_cases {a : Reg} {s t : State} (h : execPop a s = .next t) :
    (t = ((s.setReg a (stackTop s)).setSp (s.sp + 1#8)).setPc (s.pc + 2#8) ∧
      (s.cfg.rangePolicy = .wrap ∨ (s.sp.toNat ≤ 254 ∧ s.pc.toNat + 2 ≤ 255))) ∨
    (t = raise s ⟨.stackRange, 256⟩ ∧ s.cfg.rangePolicy = .fault ∧ s.sp = 255#8) ∨
    (t = raise s ⟨.pcRange, (s.pc.toNat : Int) + 2⟩ ∧ s.cfg.rangePolicy = .fault ∧
      s.sp.toNat ≤ 254 ∧ 255 < s.pc.toNat + 2) := by
  unfold execPop at h
  rcases popAddr_cases s with ⟨hs, hr⟩ | ⟨hs, hp, hz⟩
  · rcases nextPc_cases s 2 with ⟨hn, hr'⟩ | ⟨hn, hp, hr'⟩
    · refine .inl ⟨by simpa [hs, hn] using h.symm, ?_⟩
      rcases hr with hr | hr
      · exact .inl hr
      · exact hr'.imp_right fun hr' => ⟨hr, hr'⟩
    · exact .inr (.inr ⟨by simpa [hs, hn] using h.symm, hp, hr.resolve_left (by simp [hp]), hr'⟩)
  · exact .inr (.inl ⟨by simpa [hs] using h.symm, hp, hz⟩)

/-- CALL either pushes `pc + 2` and jumps, or takes one of its two faults, the stack's first. -/
theorem execCall_cases {a : Reg} {s t : State} (h : execCall a s = .next t) :
    (t = (commitPush s (s.sp - 1#8) (s.pc + 2#8)).setPc (s.getReg a) ∧
      (s.cfg.rangePolicy = .wrap ∨ (1 ≤ s.sp.toNat ∧ s.pc.toNat + 2 ≤ 255))) ∨
    (t = raise s ⟨.stackRange, -1⟩ ∧ s.cfg.rangePolicy = .fault ∧ s.sp = 0#8) ∨
    (t = raise s ⟨.pcRange, (s.pc.toNat : Int) + 2⟩ ∧ s.cfg.rangePolicy = .fault ∧
      1 ≤ s.sp.toNat ∧ 255 < s.pc.toNat + 2) := by
  unfold execCall at h
  rcases pushAddr_cases s with ⟨hs, hr⟩ | ⟨hs, hp, hz⟩
  · rcases nextPc_cases s 2 with ⟨hn, hr'⟩ | ⟨hn, hp, hr'⟩
    · refine .inl ⟨by simpa [hs, hn] using h.symm, ?_⟩
      rcases hr with hr | hr
      · exact .inl hr
      · exact hr'.imp_right fun hr' => ⟨hr, hr'⟩
    · exact .inr (.inr ⟨by simpa [hs, hn] using h.symm, hp, hr.resolve_left (by simp [hp]), hr'⟩)
  · exact .inr (.inl ⟨by simpa [hs] using h.symm, hp, hz⟩)

/-- RET either jumps to the stack's top or faults with the stack at the top of memory. -/
theorem execRet_cases {s t : State} (h : execRet s = .next t) :
    (t = (s.setSp (s.sp + 1#8)).setPc (stackTop s) ∧
      (s.cfg.rangePolicy = .wrap ∨ s.sp.toNat ≤ 254)) ∨
    (t = raise s ⟨.stackRange, 256⟩ ∧ s.cfg.rangePolicy = .fault ∧ s.sp = 255#8) := by
  unfold execRet at h
  rcases popAddr_cases s with ⟨hs, hr⟩ | ⟨hs, hp, hz⟩
  · exact .inl ⟨by simpa [hs] using h.symm, hr⟩
  · exact .inr ⟨by simpa [hs] using h.symm, hp, hz⟩

/-- UNK either skips a byte, or faults at the top of memory, or, in strict mode, always faults. -/
theorem execUnk_cases {op : Byte} {s t : State} (h : execUnk op s = .next t) :
    (t = s.setPc (s.pc + 1#8) ∧ s.cfg.strictOpcode = false ∧
      (s.cfg.rangePolicy = .wrap ∨ s.pc.toNat + 1 ≤ 255)) ∨
    (t = raise s ⟨.pcRange, (s.pc.toNat : Int) + 1⟩ ∧ s.cfg.strictOpcode = false ∧
      s.cfg.rangePolicy = .fault ∧ 255 < s.pc.toNat + 1) ∨
    (t = raise s ⟨.illegalOpcode, op.toNat⟩ ∧ s.cfg.strictOpcode = true) := by
  unfold execUnk at h
  cases hs : s.cfg.strictOpcode with
  | true => exact .inr (.inr ⟨by simpa [hs] using h.symm, rfl⟩)
  | false =>
    rcases nextPc_cases s 1 with ⟨hn, hr⟩ | ⟨hn, hp, hr⟩
    · exact .inl ⟨by simpa [hs, hn] using h.symm, rfl, hr⟩
    · exact .inr (.inl ⟨by simpa [hs, hn] using h.symm, rfl, hp, hr⟩)

/-- What an instruction can do to the run state: nothing, halt (HLT alone), or fault, and then nothing else
has changed. -/
theorem exec_run_cases {i : Instr} {s t : State} (h : exec i s = .next t) :
    (i ≠ .hlt ∧ t.run = s.run) ∨ (i = .hlt ∧ t.run = .halted) ∨ (i ≠ .hlt ∧ ∃ e, t = raise s e) := by
  cases i with
  | ldi a imm => rcases execLdi_cases h with ⟨rfl, -⟩ | ⟨rfl, -⟩ <;> simp
  | prn a => rcases execPrn_cases h with ⟨rfl, -⟩ | ⟨rfl, -⟩ <;> simp
  | mul a b => rcases execMul_cases h with ⟨rfl, -⟩ | ⟨rfl, -⟩ <;> simp
  | add a b => rcases execAdd_cases h with ⟨rfl, -⟩ | ⟨rfl, -⟩ <;> simp
  | push a => rcases execPush_cases h with ⟨rfl, -⟩ | ⟨rfl, -⟩ | ⟨rfl, -⟩ <;> simp
  | pop a => rcases execPop_cases h with ⟨rfl, -⟩ | ⟨rfl, -⟩ | ⟨rfl, -⟩ <;> simp
  | call a => rcases execCall_cases h with ⟨rfl, -⟩ | ⟨rfl, -⟩ | ⟨rfl, -⟩ <;> simp
  | ret => rcases execRet_cases h with ⟨rfl, -⟩ | ⟨rfl, -⟩ <;> simp
  | cmp a b => rcases execCmp_cases h with ⟨rfl, -⟩ | ⟨rfl, -⟩ <;> simp
  | jmp a => cases h; simp
  | jeq a => rcases branch_cases h with ⟨-, rfl⟩ | ⟨-, rfl, -⟩ | ⟨-, rfl, -⟩ <;> simp
  | jne a => rcases branch_cases h with ⟨-, rfl⟩ | ⟨-, rfl, -⟩ | ⟨-, rfl, -⟩ <;> simp
  | hlt => cases h; simp
  | unk op => rcases execUnk_cases h with ⟨rfl, -⟩ | ⟨rfl, -⟩ | ⟨rfl, -⟩ <;> simp

/-- A check never stops the machine if what follows it never does. -/
theorem checked_next {α : Type} {s : State} {r : Except Trap α} {k : α → Result}
    (h : ∀ v, ∃ t, k v = .next t) : ∃ t, checked s r k = .next t := by
  cases r with
  | ok v => exact h v
  | error e => exact ⟨_, rfl⟩

/-- Every instruction answers a next state in every state: no meaning ends in a fault outcome or a
refusal. -/
theorem exec_next (i : Instr) (s : State) : ∃ t, exec i s = .next t := by
  cases i with
  | ldi a imm =>
    simp only [exec, execLdi]
    exact checked_next fun _ => ⟨_, rfl⟩
  | prn a =>
    simp only [exec, execPrn]
    exact checked_next fun _ => ⟨_, rfl⟩
  | mul a b =>
    simp only [exec, execMul, aluInstr]
    exact checked_next fun _ => checked_next fun _ => ⟨_, rfl⟩
  | add a b =>
    simp only [exec, execAdd, aluInstr]
    exact checked_next fun _ => checked_next fun _ => ⟨_, rfl⟩
  | push a =>
    simp only [exec, execPush]
    exact checked_next fun _ => checked_next fun _ => ⟨_, rfl⟩
  | pop a =>
    simp only [exec, execPop]
    exact checked_next fun _ => checked_next fun _ => ⟨_, rfl⟩
  | call a =>
    simp only [exec, execCall]
    exact checked_next fun _ => checked_next fun _ => ⟨_, rfl⟩
  | ret =>
    simp only [exec, execRet]
    exact checked_next fun _ => ⟨_, rfl⟩
  | cmp a b =>
    simp only [exec, execCmp, aluInstr]
    exact checked_next fun _ => checked_next fun _ => ⟨_, rfl⟩
  | jmp a => exact ⟨_, rfl⟩
  | jeq a =>
    simp only [exec, execJeq, branch]
    split
    · exact ⟨_, rfl⟩
    · exact checked_next fun _ => ⟨_, rfl⟩
  | jne a =>
    simp only [exec, execJne, branch]
    split
    · exact ⟨_, rfl⟩
    · exact checked_next fun _ => ⟨_, rfl⟩
  | hlt => exact ⟨_, rfl⟩
  | unk op =>
    simp only [exec, execUnk]
    split
    · exact ⟨_, rfl⟩
    · exact checked_next fun _ => ⟨_, rfl⟩

end Sys2Proof.Machine
end

