-- ==== Sys2Proof/Laws/PerInstr.lean ====
section
/-!
SUPPORT. A statement about every instruction as syntax: the length of its encoding is the length the
instruction's format gives it, between one and three bytes (spec/30_encoding.md rules R80, R82).
-/
namespace Sys2Proof.Laws.EncodedLength

/-- The encoding of `i` has the length of its format, 1, 2 or 3. -/
def Statement (i : Instr) : Prop :=
  ∀ o : Opcodes, (encode o i).length = instrLength i ∧ instrLength i ∈ [1, 2, 3]

theorem ldi (a : Reg) (imm : Byte) : Statement (.ldi a imm) := fun _ => ⟨rfl, by simp [instrLength]⟩
theorem prn (a : Reg) : Statement (.prn a) := fun _ => ⟨rfl, by simp [instrLength]⟩
theorem mul (a b : Reg) : Statement (.mul a b) := fun _ => ⟨rfl, by simp [instrLength]⟩
theorem add (a b : Reg) : Statement (.add a b) := fun _ => ⟨rfl, by simp [instrLength]⟩
theorem push (a : Reg) : Statement (.push a) := fun _ => ⟨rfl, by simp [instrLength]⟩
theorem pop (a : Reg) : Statement (.pop a) := fun _ => ⟨rfl, by simp [instrLength]⟩
theorem call (a : Reg) : Statement (.call a) := fun _ => ⟨rfl, by simp [instrLength]⟩
theorem ret : Statement .ret := fun _ => ⟨rfl, by simp [instrLength]⟩
theorem cmp (a b : Reg) : Statement (.cmp a b) := fun _ => ⟨rfl, by simp [instrLength]⟩
theorem jmp (a : Reg) : Statement (.jmp a) := fun _ => ⟨rfl, by simp [instrLength]⟩
theorem jeq (a : Reg) : Statement (.jeq a) := fun _ => ⟨rfl, by simp [instrLength]⟩
theorem jne (a : Reg) : Statement (.jne a) := fun _ => ⟨rfl, by simp [instrLength]⟩
theorem hlt : Statement .hlt := fun _ => ⟨rfl, by simp [instrLength]⟩
theorem unk (op : Byte) : Statement (.unk op) := fun _ => ⟨rfl, by simp [instrLength]⟩

end Sys2Proof.Laws.EncodedLength
end

