-- ==== Sys2Proof/Laws/Step.lean ====
section
/-!
SUPPORT. What one step of the loop can do, said once.
-/
namespace Sys2Proof.Machine

/-- A step in RUNNING fetches, decodes and executes, or takes the fetch's fault. -/
theorem step_running {s : State} (h : s.run = .running) :
    step s = checked s (fetchInstr s) fun i => exec i s := by
  simp [step, h]

/-- A step that answers a next state was RUNNING, and either executed the instruction it fetched or took
the fault of the fetch. -/
theorem step_cases {s t : State} (h : step s = .next t) :
    s.run = .running ∧
      ((∃ i, fetchInstr s = .ok i ∧ exec i s = .next t) ∨
        (∃ e, fetchInstr s = .error e ∧ t = raise s e)) := by
  cases hr : s.run with
  | running =>
    rw [step_running hr] at h
    exact ⟨rfl, checked_cases h⟩
  | halted => simp [step, hr] at h
  | faulted e => simp [step, hr] at h

/-- Every state that is RUNNING has a next state. -/
theorem step_next_of_running {s : State} (h : s.run = .running) : ∃ t, step s = .next t := by
  rw [step_running h]
  exact checked_next fun i => exec_next i s

/-- What the fetch answers, by what the decoder answers. -/
theorem fetchInstr_ok {s : State} {i : Instr} {rest : List Byte}
    (h : decode s.cfg.rangePolicy s.cfg.opcodes (fetchWindow s) = .ok (i, rest)) :
    fetchInstr s = .ok i := by
  simp [fetchInstr, h]

theorem fetchInstr_error {s : State} {e : Reject}
    (h : decode s.cfg.rangePolicy s.cfg.opcodes (fetchWindow s) = .error e) :
    fetchInstr s = .error (rejectTrap s e) := by
  simp [fetchInstr, h]

/-- A fetched instruction is what the decoder read from the window. -/
theorem decode_of_fetchInstr {s : State} {i : Instr} (h : fetchInstr s = .ok i) :
    ∃ rest, decode s.cfg.rangePolicy s.cfg.opcodes (fetchWindow s) = .ok (i, rest) := by
  unfold fetchInstr at h
  split at h
  · obtain rfl : _ = i := by simpa using h
    exact ⟨_, ‹_›⟩
  · cases h

/-- Placing bytes changes nothing but memory. -/
theorem placeByte_frame (s : State) (k : Nat) (b : Byte) :
    ∃ m, placeByte s k b = { s with mem := m } := by
  unfold placeByte
  split
  · exact ⟨_, rfl⟩
  · exact ⟨s.mem, rfl⟩

/-- Placing an instruction changes memory and starts the loop, nothing else. -/
theorem withFetchWord_frame (s : State) (nbits w : Nat) :
    ∃ m, s.withFetchWord nbits w = { s with mem := m, run := .running } := by
  suffices h : ∀ (bs : List Byte) (k : Nat) (s : State), ∃ m, placeBytes k bs s = { s with mem := m } by
    obtain ⟨m, hm⟩ := h (tableBytes nbits w) 0 s
    exact ⟨m, by rw [State.withFetchWord, hm]; rfl⟩
  intro bs
  induction bs with
  | nil => exact fun _ s => ⟨s.mem, rfl⟩
  | cons b bs ih =>
    intro k s
    obtain ⟨m, hm⟩ := placeByte_frame s k b
    obtain ⟨m', hm'⟩ := ih (k + 1) (placeByte s k b)
    exact ⟨m', by rw [placeBytes, hm', hm]⟩

end Sys2Proof.Machine
end

