-- ==== Sys2Proof/Tests/Slice0.lean ====
section
/-!
SUPPORT. The model's own tests. Expected results come from spec/95_test_vectors.md (the vector's id is named)
or, where no vector is named, by hand from the rule named. First the decoder words and the well-formedness
check, then one-step vectors, then a witness for the hypotheses of each statement that has some.
-/
namespace Sys2Proof.Tests

open Sys2Proof.Machine Sys2Proof.Rules

/-! ### Well-formedness -/

theorem test_wellFormed_refuses_known_opcode_as_unknown :
    (Instr.unk 0x82#8).wellFormed Opcodes.standard = false ∧
    (Instr.unk 0x01#8).wellFormed Opcodes.standard = false := by decide

theorem test_wellFormed_accepts_unknown_opcode :
    (Instr.unk 0xA1#8).wellFormed Opcodes.standard = true := by decide

theorem test_standard_opcodes_distinct : Opcodes.standard.Distinct := by decide

/-! ### Decoder words, written out from the formats of rule R81 and the opcodes of rule R86 (E1 to E17).
A word's byte 0 is its low byte. -/

theorem test_decode_ldi : decodeTableWord 24 0x080082 = some (.ldi 0 0x08#8) := by decide
theorem test_decode_ldi_r7 : decodeTableWord 24 0xFF0782 = some (.ldi 7 0xFF#8) := by decide
theorem test_decode_prn : decodeTableWord 16 0x0047 = some (.prn 0) := by decide
theorem test_decode_mul : decodeTableWord 24 0x0100A2 = some (.mul 0 1) := by decide
theorem test_decode_add : decodeTableWord 24 0x0302A0 = some (.add 2 3) := by decide
theorem test_decode_push : decodeTableWord 16 0x0445 = some (.push 4) := by decide
theorem test_decode_pop : decodeTableWord 16 0x0546 = some (.pop 5) := by decide
theorem test_decode_call : decodeTableWord 16 0x0150 = some (.call 1) := by decide
theorem test_decode_ret : decodeTableWord 8 0x11 = some .ret := by decide
theorem test_decode_cmp : decodeTableWord 24 0x0200A7 = some (.cmp 0 2) := by decide
theorem test_decode_jmp : decodeTableWord 16 0x0354 = some (.jmp 3) := by decide
theorem test_decode_jeq : decodeTableWord 16 0x0255 = some (.jeq 2) := by decide
theorem test_decode_jne : decodeTableWord 16 0x0356 = some (.jne 3) := by decide
theorem test_decode_hlt : decodeTableWord 8 0x01 = some .hlt := by decide
theorem test_decode_unk : decodeTableWord 8 0x00 = some (.unk 0x00#8) := by decide
theorem test_decode_unk_not_subtract : decodeTableWord 8 0xA1 = some (.unk 0xA1#8) := by decide
theorem test_decode_unk_one_byte : decodeTableWord 8 0xC3 = some (.unk 0xC3#8) := by decide

/-- A table row given by its opcode byte alone has zeros for operand bytes. -/
theorem test_decode_short_word : decodeTableWord 8 0xA0 = some (.add 0 0) := by decide

/-- A register-select byte of 8 holds no instruction under `fault` and names `x[0]` under `wrap` (R17). -/
theorem test_regSel_eight : decodeTableWord 16 0x0845 = none ∧ regSel .wrap 8#8 = some 0 := by decide

/-! ### One-step vectors -/

/-- The start state of the vectors: `pc = 20`, `sp = F4`, flags `000`, running (95 section 2.2). -/
def start20 : State := { State.reset with pc := 0x20#8, run := .running }

/-- `s` with the bytes of an instruction from `pc` on. -/
def withBytes (bs : List Byte) (s : State) : State := placeBytes 0 bs s

/-- The parameters with `RANGE_POLICY = wrap`. -/
def wrapCfg : Config := { Config.standard with rangePolicy := .wrap }

/-- The parameters with `OVERFLOW = saturation`. -/
def saturatingCfg : Config := { Config.standard with overflow := .saturation }

/-- The parameters with `STRICT_OPCODE = true`. -/
def strictCfg : Config := { Config.standard with strictOpcode := true }

/-- The next state of an outcome. -/
def nextOf : Result → Option State
  | .next t => some t
  | .fault _ => none
  | .refused _ => none

/-- What is looked at after a step. -/
def seen {α : Type} (s : State) (f : State → α) : Option α := (nextOf (step s)).map f

/-- The run state of a fault. -/
def faultRun (c : Cause) (n : Int) : Run := .faulted ⟨c, n⟩

/-- V54. -/
theorem test_ldi_at_253_faults :
    seen (withBytes [0x82#8, 0x00#8, 0x08#8] { start20 with pc := 0xFD#8 })
      (fun t => (t.run, t.getReg 0, t.pc)) = some (faultRun .pcRange 256, 0x00#8, 0xFD#8) := by decide

/-- W5: the second operand byte is at address 0. -/
theorem test_ldi_wraps :
    seen (withBytes [0x82#8, 0x01#8, 0x33#8] { start20 with cfg := wrapCfg, pc := 0xFE#8 })
      (fun t => (t.getReg 1, t.pc, t.mem.read 0)) = some (0x33#8, 0x01#8, 0x33#8) := by decide

/-- V4. -/
theorem test_prn_emits :
    seen (withBytes [0x47#8, 0x00#8] (start20.setReg 0 0x48#8)) (fun t => (t.out, t.pc)) =
      some ([72#8], 0x22#8) := by decide

/-- V62: a faulting PRN emits nothing. -/
theorem test_prn_faulting_emits_nothing :
    seen (withBytes [0x47#8, 0x00#8] { start20.setReg 0 0x05#8 with pc := 0xFE#8 })
      (fun t => (t.out, t.run)) = some ([], faultRun .pcRange 256) := by decide

/-- V7. -/
theorem test_add_wraps :
    seen (withBytes [0xA0#8, 0x00#8, 0x01#8] ((start20.setReg 0 0xC8#8).setReg 1 0x64#8))
      (fun t => (t.getReg 0, t.getReg 1, t.pc, t.fl)) =
      some (0x2C#8, 0x64#8, 0x23#8, ⟨false, false, false⟩) := by decide

/-- V59: the second operand's fetch is checked before the bad register byte. -/
theorem test_add_fetch_before_register :
    seen (withBytes [0xA0#8, 0x09#8] { start20 with pc := 0xFE#8 }) (fun t => t.run) =
      some (faultRun .operandFetchRange 256) := by decide

/-- OVERFLOW = saturation by hand (D1): 200 + 100 and 16 * 16 exceed 255, 200 + 55 and 17 * 15 do not. -/
theorem test_saturation :
    ([(0xC8#8, 0x64#8), (0xC8#8, 0x37#8)].map fun (v, w) => aluSum saturatingCfg v w) = [0xFF#8, 0xFF#8] ∧
    ([(0x10#8, 0x10#8), (0x11#8, 0x0F#8), (0x10#8, 0x0F#8)].map fun (v, w) =>
      aluProduct saturatingCfg v w) = [0xFF#8, 0xFF#8, 0xF0#8] := by decide

/-- The numbers of rule R6's table. -/
theorem test_default_parameters :
    (Config.standard.xlen.bits, Config.standard.pcBits.bits, Config.standard.spBits.bits) = (8, 8, 8) ∧
    Config.standard.overflow = .wraparound ∧ Config.standard.rangePolicy = .fault ∧
    Config.standard.strictOpcode = false ∧ Config.standard.r7Reset = 0xF4#8 ∧
    Config.standard.flReset = ⟨false, false, false⟩ := by decide

/-- V14. -/
theorem test_mul_wraps :
    seen (withBytes [0xA2#8, 0x00#8, 0x01#8] ((start20.setReg 0 0xFF#8).setReg 1 0xFF#8))
      (fun t => (t.getReg 0, t.pc)) = some (0x01#8, 0x23#8) := by decide

/-- V15: both sources and the destination are one register. -/
theorem test_mul_squares :
    seen (withBytes [0xA2#8, 0x00#8, 0x00#8] (start20.setReg 0 0x11#8)) (fun t => t.getReg 0) =
      some 0x21#8 := by decide

/-- V23: unsigned, the first operand the greater. -/
theorem test_cmp_unsigned :
    seen (withBytes [0xA7#8, 0x00#8, 0x01#8] ((start20.setReg 0 0x80#8).setReg 1 0x7F#8))
      (fun t => (t.fl, t.pc)) = some (⟨false, true, false⟩, 0x23#8) := by decide

/-- V24: the old `L` is cleared. -/
theorem test_cmp_same_register :
    seen (withBytes [0xA7#8, 0x03#8, 0x03#8]
      { start20.setReg 3 0xAB#8 with fl := ⟨false, false, true⟩ }) (fun t => t.fl) =
      some ⟨true, false, false⟩ := by decide

/-- V27: the PUSH overwrites its own operand byte after fetching it. -/
theorem test_push_over_itself :
    seen (withBytes [0x45#8, 0x00#8] { start20.setReg 0 0x99#8 with sp := 0x22#8 })
      (fun t => (t.mem.read 0x21, t.sp, t.pc)) = some (0x99#8, 0x21#8, 0x22#8) := by decide

/-- V58: the stack range is checked before the pc range. -/
theorem test_push_stack_before_pc :
    seen (withBytes [0x45#8, 0x00#8] { start20 with pc := 0xFE#8, sp := 0x00#8 })
      (fun t => (t.run, t.mem.read 0xFF)) = some (faultRun .stackRange (-1), 0x00#8) := by decide

/-- V28: the popped cell keeps its value. -/
theorem test_pop_loads :
    seen (withBytes [0x46#8, 0x02#8] ({ start20 with sp := 0xF3#8 }.memWrite 0xF3#8 0x0A#8))
      (fun t => (t.getReg 2, t.sp, t.mem.read 0xF3, t.pc)) =
      some (0x0A#8, 0xF4#8, 0x0A#8, 0x22#8) := by decide

/-- V53. -/
theorem test_pop_at_top_faults :
    seen (withBytes [0x46#8, 0x00#8] ({ start20 with sp := 0xFF#8 }.memWrite 0xFF#8 0xAA#8))
      (fun t => (t.run, t.getReg 0, t.sp)) = some (faultRun .stackRange 256, 0x00#8, 0xFF#8) := by
  decide

/-- V43: the return address is `pc + 2`. -/
theorem test_call_pushes_pc_plus_two :
    seen (withBytes [0x50#8, 0x01#8] { start20.setReg 1 0x10#8 with pc := 0x06#8 })
      (fun t => (t.mem.read 0xF3, t.sp, t.pc)) = some (0x08#8, 0xF3#8, 0x10#8) := by decide

/-- V56. -/
theorem test_call_at_254_faults :
    seen (withBytes [0x50#8, 0x01#8] { start20.setReg 1 0x10#8 with pc := 0xFE#8 })
      (fun t => (t.run, t.mem.read 0xF3, t.sp)) =
      some (faultRun .pcRange 256, 0x00#8, 0xF4#8) := by decide

/-- V45. -/
theorem test_ret_pops_pc :
    seen (withBytes [0x11#8] ({ start20 with pc := 0x13#8, sp := 0xF3#8 }.memWrite 0xF3#8 0x08#8))
      (fun t => (t.pc, t.sp)) = some (0x08#8, 0xF4#8) := by decide

/-- V61. -/
theorem test_ret_at_top_faults :
    seen (withBytes [0x11#8] { start20 with sp := 0xFF#8 }) (fun t => (t.run, t.pc)) =
      some (faultRun .stackRange 256, 0x20#8) := by decide

/-- V34. -/
theorem test_jmp_to_register :
    seen (withBytes [0x54#8, 0x03#8] (start20.setReg 3 0x0C#8)) (fun t => t.pc) =
      some 0x0C#8 := by decide

/-- V35: no sequential `pc` is computed. -/
theorem test_jmp_at_254 :
    seen (withBytes [0x54#8, 0x00#8] { start20 with pc := 0xFE#8 }) (fun t => (t.pc, t.run)) =
      some (0x00#8, .running) := by decide

/-- V37: not taken after a CMP that set `G`. -/
theorem test_jeq_not_taken :
    seen (withBytes [0x55#8, 0x02#8]
      { start20.setReg 2 0x40#8 with fl := ⟨false, true, false⟩ }) (fun t => t.pc) =
      some 0x22#8 := by decide

/-- V57, taken: no PcRange at 254. -/
theorem test_jeq_taken_at_254 :
    seen (withBytes [0x55#8, 0x02#8]
      { start20.setReg 2 0x40#8 with pc := 0xFE#8, fl := ⟨true, false, false⟩ })
      (fun t => (t.pc, t.run)) = some (0x40#8, .running) := by decide

/-- V42: neither `G` nor `L` is set before the first CMP, so JNE is not taken. -/
theorem test_jne_before_any_cmp :
    seen (withBytes [0x56#8, 0x02#8] (start20.setReg 2 0x40#8)) (fun t => t.pc) =
      some 0x22#8 := by decide

/-- V60: the register byte is checked although the jump would not be taken. -/
theorem test_jne_not_taken_checks_register :
    seen (withBytes [0x56#8, 0x09#8] { start20 with fl := ⟨true, false, false⟩ })
      (fun t => t.run) = some (faultRun .registerRange 9) := by decide

/-- V63. -/
theorem test_hlt_at_top :
    seen (withBytes [0x01#8] { start20 with pc := 0xFF#8 }) (fun t => (t.run, t.pc)) =
      some (.halted, 0xFF#8) := by decide

/-- V30: one byte is skipped, whatever follows. -/
theorem test_unk_skips_one_byte :
    seen (withBytes [0xFF#8, 0x47#8, 0x00#8] start20) (fun t => (t.pc, t.out, t.run)) =
      some (0x21#8, [], .running) := by decide

/-- X2: strict mode is checked before the pc range. -/
theorem test_unk_strict :
    seen (withBytes [0x00#8] { start20 with cfg := strictCfg, pc := 0xFF#8 }) (fun t => t.run) =
      some (faultRun .illegalOpcode 0) := by decide

/-- P9: with no program the run starts HALTED, and no step exists (R222). -/
theorem test_no_program_halts :
    (nextOf (launch Config.standard [])).map (fun t => (t.run, t.pc, t.sp)) =
      some (.halted, 0x00#8, 0xF4#8) ∧ nextOf (step State.reset) = none := by decide

/-- P1's first step from a loaded image (R37, R221). -/
theorem test_launch_runs_the_image :
    ((nextOf (launch Config.standard [0x82, 0x00, 0x08, 0x01])).bind fun t =>
      seen t (fun u => (u.getReg 0, u.pc, u.run))) = some (0x08#8, 0x03#8, .running) := by decide

/-- A word placed at the reset state runs as the first instruction. -/
theorem test_withFetchWord_runs :
    seen (State.reset.withFetchWord 24 0x2A0382) (fun t => (t.getReg 3, t.pc)) =
      some (0x2A#8, 0x03#8) := by decide

/-- R31: the packing of the flags. -/
theorem test_packFlags : packFlags ⟨false, false, true⟩ = 0x04#8 ∧ packFlags ⟨true, false, false⟩ = 0x01#8 := by
  decide

/-- R12, R191: the status outputs after V49. -/
theorem test_ports_of_a_fault :
    seen (withBytes [0x45#8, 0x08#8] start20)
      (fun t => (t.faultedPort, t.haltedPort, t.faultCausePort, t.faultInfoPort)) =
      some (true, false, some 2, some 8) := by decide

/-- R11: one value is presented by a PRN (V5). -/
theorem test_outPort_of_prn :
    seen (withBytes [0x47#8, 0x07#8] start20) (fun t => outPort start20 t) = some (some 244#8) := by decide

/-! ### Witnesses: a concrete state and operands that meet all hypotheses of each statement -/

/-- DataMovementCompletes, AluInstructionsComplete: the last `pc` that fits, and one that wraps. -/
theorem witness_PcFits :
    PcFits { start20 with pc := 252#8 } 3 ∧ PcFits { start20 with pc := 253#8 } 2 ∧
    PcFits { start20 with pc := 254#8 } 1 ∧
    PcFits { start20 with cfg := wrapCfg, pc := 255#8 } 3 :=
  ⟨.inr (by decide), .inr (by decide), .inr (by decide), .inl rfl⟩

/-- StackInstructionsComplete, CallAndReturnComplete, ReturnGoesAfterTheCall: the last `sp` that fits, and
ones that wrap. -/
theorem witness_stack_fits :
    (PushFits { start20 with sp := 1#8 } ∧ PcFits { start20 with sp := 1#8 } 2 ∧
      { start20 with sp := 1#8 }.mem.wf = true) ∧
    (PopFits { start20 with sp := 254#8 } ∧ PcFits { start20 with sp := 254#8 } 2) ∧
    PushFits { start20 with cfg := wrapCfg, sp := 0#8 } ∧
    PopFits { start20 with cfg := wrapCfg, sp := 255#8 } :=
  ⟨⟨.inr (by decide), .inr (by decide), rfl⟩, ⟨.inr (by decide), .inr (by decide)⟩, .inl rfl, .inl rfl⟩

/-- JumpsComplete: a taken JEQ, a JNE taken by each of its flags, and branches not taken at the last `pc`
that fits. -/
theorem witness_JumpsComplete :
    { start20 with fl := ⟨true, false, false⟩ }.fl.e = true ∧
    { start20 with fl := ⟨false, true, false⟩ }.fl.g = true ∧
    { start20 with fl := ⟨false, false, true⟩ }.fl.l = true ∧
    (start20.fl.e = false ∧ PcFits { start20 with pc := 253#8 } 2) :=
  ⟨rfl, rfl, rfl, rfl, .inr (by decide)⟩

/-- HltAndUnknownComplete. -/
theorem witness_UnknownCompletes : start20.cfg.strictOpcode = false ∧ PcFits start20 1 :=
  ⟨rfl, .inr (by decide)⟩

/-- LdiStep to RetStep: a state that fetches each handler's opcode byte, with OVERFLOW = wraparound. -/
theorem witness_Fetches (h : Handler) :
    Fetches (withBytes [Opcodes.standard.ofHandler h] start20)
      ((withBytes [Opcodes.standard.ofHandler h] start20).cfg.opcodes.ofHandler h) := by
  cases h <;> exact ⟨rfl, by decide, by decide⟩

theorem witness_wraparound (h : Handler) :
    (withBytes [Opcodes.standard.ofHandler h] start20).cfg.overflow = .wraparound := by
  cases h <;> rfl

/-- SaturatingAluSteps, each clause: 200 + 100, and 16 * 16. -/
theorem witness_saturation :
    (Fetches (withBytes [0xA0#8, 0x00#8, 0x01#8] { start20 with cfg := saturatingCfg }) 0xA0#8 ∧
      { start20 with cfg := saturatingCfg }.cfg.overflow = .saturation ∧
      seen (withBytes [0xA0#8, 0x00#8, 0x01#8]
        ({ start20.setReg 0 0xC8#8 with cfg := saturatingCfg }.setReg 1 0x64#8))
        (fun t => (t.getReg 0, t.pc)) = some (0xFF#8, 0x23#8)) ∧
    (Fetches (withBytes [0xA2#8, 0x00#8, 0x01#8] { start20 with cfg := saturatingCfg }) 0xA2#8 ∧
      seen (withBytes [0xA2#8, 0x00#8, 0x01#8]
        ({ start20.setReg 0 0x10#8 with cfg := saturatingCfg }.setReg 1 0x10#8))
        (fun t => (t.getReg 0, t.pc)) = some (0xFF#8, 0x23#8)) :=
  ⟨⟨⟨rfl, by decide, by decide⟩, rfl, by decide⟩, ⟨rfl, by decide, by decide⟩, by decide⟩

/-- The checks of rule R192 at the boundary values of their ranges: none raised at the last address or
register in range, each raised at the first out of it, none under `wrap`. -/
theorem witness_checks :
    operandCheck { start20 with pc := 253#8 } 2 = none ∧
    operandCheck { start20 with pc := 254#8 } 2 = some ⟨.operandFetchRange, 256⟩ ∧
    registerCheck start20 7#8 = none ∧ registerCheck start20 8#8 = some ⟨.registerRange, 8⟩ ∧
    pushCheck { start20 with sp := 1#8 } = none ∧
    pushCheck { start20 with sp := 0#8 } = some ⟨.stackRange, -1⟩ ∧
    popCheck { start20 with sp := 254#8 } = none ∧
    popCheck { start20 with sp := 255#8 } = some ⟨.stackRange, 256⟩ ∧
    pcCheck { start20 with pc := 252#8 } 3 = none ∧
    pcCheck { start20 with pc := 253#8 } 3 = some ⟨.pcRange, 256⟩ ∧
    pcCheck { start20 with cfg := wrapCfg, pc := 255#8 } 3 = none ∧
    registerCheck { start20 with cfg := wrapCfg } 8#8 = none := by decide

/-- HltStep. -/
theorem witness_HltStep :
    (withBytes [0x01#8] start20).run = .running ∧
    (withBytes [0x01#8] start20).mem.read (withBytes [0x01#8] start20).pc.toNat =
      (withBytes [0x01#8] start20).cfg.opcodes.hlt := by decide

/-- UnknownOpcodeStep, in both modes: 0x00 is unknown. -/
theorem witness_UnknownOpcodeStep :
    (start20.run = .running ∧ start20.mem.read start20.pc.toNat ∉ start20.cfg.opcodes.bytes ∧
      start20.cfg.strictOpcode = false) ∧
    { start20 with cfg := strictCfg }.mem.read 0x20 ∉ strictCfg.opcodes.bytes := by decide

/-- DecodeOfEncodeIsTheInstruction: distinct bytes and a well-formed UNK. -/
theorem witness_encode_hypotheses :
    Opcodes.standard.Distinct ∧ (Instr.unk 0xFF#8).wellFormed Opcodes.standard = true := by decide

/-- EncodeOfDecodeIsTheBytesRead, DecodeConsumesTheFormatLength: bytes that decode, with one left over. -/
theorem witness_decode_ok :
    decode .fault Opcodes.standard [0xA0#8, 0x02#8, 0x03#8, 0xEE#8] = .ok (.add 2 3, [0xEE#8]) := rfl

/-- DecodeRejectsOnlyMissingBytesOrRegisters, clause by clause: two bytes of a three-byte instruction, the
first bad register byte, three bytes under `wrap`. -/
theorem witness_decode_rejects :
    decode .fault Opcodes.standard [0xA0#8, 0x09#8] = .error .missingByte ∧
    decode .fault Opcodes.standard [0xA0#8, 0x07#8, 0x08#8] = .error (.registerRange 0x08#8) ∧
    decode .wrap Opcodes.standard [0xA0#8, 0x07#8, 0x08#8] = .ok (.add 7 0, []) := ⟨rfl, rfl, rfl⟩

/-- UnknownBytesAre243OneByteInstructions: 0x00 is none of the thirteen. -/
theorem witness_unknown_byte : (0x00#8 : Byte) ∉ Opcodes.standard.bytes := by decide

/-- StepRunsTheDecodedInstruction: a RET at the top of memory, where the window has one byte. -/
theorem witness_StepRuns :
    (withBytes [0x11#8] { start20 with pc := 255#8 }).run = .running ∧
    decode (withBytes [0x11#8] { start20 with pc := 255#8 }).cfg.rangePolicy
      (withBytes [0x11#8] { start20 with pc := 255#8 }).cfg.opcodes
      (fetchWindow (withBytes [0x11#8] { start20 with pc := 255#8 })) = .ok (.ret, []) := ⟨rfl, rfl⟩

/-- NoStepFromHaltedOrFaulted. -/
theorem witness_terminal :
    State.reset.run = .halted ∧ { start20 with run := faultRun .pcRange 256 }.run = faultRun .pcRange 256 :=
  ⟨rfl, rfl⟩

/-- OnlyHltHalts, StepKeepsTheInvariant, ExactlyOneFlagFromTheFirstCmpOn: a step with each kind of end. -/
theorem witness_steps :
    seen (withBytes [0x01#8] start20) (fun t => t.run) = some .halted ∧
    seen start20 (fun t => t.run) = some .running ∧ start20.inv = true ∧
    (oneFlagSet { start20 with fl := ⟨false, true, false⟩ }.fl = true ∧
      (seen { start20 with fl := ⟨false, true, false⟩ } (fun t => t.run)).isSome = true) ∧
    (PcFits start20 3 ∧ (nextOf (exec (.cmp 0 1) start20)).isSome = true) :=
  ⟨by decide, by decide, by decide, by decide, .inr (by decide), by decide⟩

/-- FaultsArePrecise, FaultCausesFollowTheTable: a step that ends with each cause there is, the AluUnsupported
of the table excepted, which no step ends with. -/
theorem witness_fault_causes :
    seen (withBytes [0x47#8] { start20 with pc := 255#8 }) (fun t => t.run) =
      some (faultRun .operandFetchRange 256) ∧
    seen (withBytes [0xA0#8, 0x07#8, 0x08#8] start20) (fun t => t.run) =
      some (faultRun .registerRange 8) ∧
    seen (withBytes [0x50#8, 0x00#8] { start20 with sp := 0#8 }) (fun t => t.run) =
      some (faultRun .stackRange (-1)) ∧
    seen { start20 with pc := 255#8 } (fun t => t.run) = some (faultRun .pcRange 256) ∧
    seen { start20 with cfg := strictCfg } (fun t => t.run) = some (faultRun .illegalOpcode 0) := by decide

/-- OutputGrowsOnlyByPrn: a PRN that completes and a step that is none. -/
theorem witness_output :
    seen (withBytes [0x47#8, 0x07#8] start20) (fun t => t.out) = some [0xF4#8] ∧
    seen start20 (fun t => t.out) = some [] ∧ start20.cfg.opcodes.Distinct := by decide

/-- AddrOfRangesOrFaults, each clause at the values where the clauses meet. -/
theorem witness_addrOf :
    addrOf .fault 255 .pcRange = .ok 255#8 ∧ addrOf .fault 0 .stackRange = .ok 0#8 ∧
    addrOf .fault 256 .pcRange = .error ⟨.pcRange, 256⟩ ∧
    addrOf .fault (-1) .stackRange = .error ⟨.stackRange, -1⟩ ∧
    addrOf .wrap 256 .pcRange = .ok 0#8 ∧ addrOf .wrap (-1) .stackRange = .ok 255#8 :=
  ⟨rfl, rfl, rfl, rfl, rfl, rfl⟩

/-- RegSelComparesTheWholeByte, each clause at the values where the clauses meet. -/
theorem witness_regSel :
    regSel .fault 7#8 = some 7 ∧ regSel .fault 8#8 = none ∧ regSel .wrap 255#8 = some 7 ∧
    (withBytes [0xA0#8, 0x07#8, 0x08#8] start20).run = .running ∧
    decode (withBytes [0xA0#8, 0x07#8, 0x08#8] start20).cfg.rangePolicy
      (withBytes [0xA0#8, 0x07#8, 0x08#8] start20).cfg.opcodes
      (fetchWindow (withBytes [0xA0#8, 0x07#8, 0x08#8] start20)) = .error (.registerRange 0x08#8) :=
  ⟨by decide, by decide, by decide, rfl, rfl⟩

/-- ReadGivesTheLatestWrite: a canonical memory, and another cell. -/
theorem witness_memory : start20.mem.wf = true ∧ (0xF2#8 : Byte) ≠ 0xF3#8 := by decide

/-- The frames: each instruction they name answers a next state. -/
theorem witness_frames :
    [Instr.ldi 0 1#8, .add 0 1, .mul 0 1, .prn 0, .cmp 0 1, .jmp 0, .jeq 0, .jne 0, .ret, .hlt,
      .unk 0#8, .pop 0, .push 0, .call 0].all (fun i => (nextOf (exec i start20)).isSome) = true := by
  decide

/-- PushingFrame: the stack address where there is one, and where there is none. -/
theorem witness_pushAddr :
    pushAddr start20 = .ok 0xF3#8 ∧ pushAddr { start20 with sp := 0#8 } = .error ⟨.stackRange, -1⟩ :=
  ⟨rfl, rfl⟩

/-- FlagsAreReadOnlyByBranches: a CMP that completes at the last `pc` that fits, and one that faults at the
next. -/
theorem witness_flags_of_cmp :
    (PcFits { start20 with pc := 252#8 } 3 ∧
      (nextOf (exec (.cmp 0 1) { start20 with pc := 252#8 })).isSome = true) ∧
    (¬PcFits { start20 with pc := 253#8 } 3 ∧
      (nextOf (exec (.cmp 0 1) { start20 with pc := 253#8 })).isSome = true) :=
  ⟨⟨.inr (by decide), by decide⟩, by unfold PcFits; decide, by decide⟩

/-- FlagsAreReadOnlyByBranches, StackPointerIsOnlyTheStackInstructions: an ADD, and branches under flags that
agree where each looks. -/
theorem witness_noninterference :
    ((∀ a, Instr.add 0 1 ≠ .jeq a) ∧ (∀ a, Instr.add 0 1 ≠ .jne a) ∧
      (∀ a b, Instr.add 0 1 ≠ .cmp a b) ∧ (∀ a, Instr.add 0 1 ≠ .push a) ∧
      (∀ a, Instr.add 0 1 ≠ .pop a) ∧ (∀ a, Instr.add 0 1 ≠ .call a) ∧ Instr.add 0 1 ≠ .ret ∧
      (nextOf (exec (.add 0 1) start20)).isSome = true) ∧
    ((⟨false, true, true⟩ : Flags).e = start20.fl.e ∧
      (nextOf (exec (.jeq 0) start20)).isSome = true) ∧
    ((⟨true, false, false⟩ : Flags).g = start20.fl.g ∧ (⟨true, false, false⟩ : Flags).l = start20.fl.l ∧
      (nextOf (exec (.jne 0) start20)).isSome = true) := by
  refine ⟨⟨?_, ?_, ?_, ?_, ?_, ?_, ?_, ?_⟩, ?_, ?_⟩ <;> decide

/-- LoaderWritesTheImage, StartOfRunValues: an image that is written, no image, one that is too long and one
with a value that is no byte. -/
theorem witness_images :
    (([0x82, 0x00, 0xFF] : List Nat).length ≤ 256 ∧ ∀ v ∈ ([0x82, 0x00, 0xFF] : List Nat), v ≤ 255) ∧
    ([] : List Nat).length ≤ 256 ∧ 256 < (List.replicate 257 0).length ∧
    (([1, 256] : List Nat).length ≤ 256 ∧ ∃ v ∈ ([1, 256] : List Nat), 255 < v) ∧
    State.reset.mem.wf = true := by
  refine ⟨by decide, by decide, ?_, by decide, by decide⟩
  rw [List.length_replicate]
  decide

/-- The state `CALL R0` leaves at `start20`. -/
def called : State := { start20 with mem := [(0xF3, 0x22#8)], sp := 0xF3#8, pc := 0x00#8 }

/-- ReturnGoesAfterTheCall: the state a CALL leaves, with another register written since, meets the premises
on the state that returns. -/
theorem witness_return :
    exec (.call 0) start20 = .next called ∧ (called.setReg 1 9#8).cfg = start20.cfg ∧
    (called.setReg 1 9#8).sp = called.sp ∧
    (called.setReg 1 9#8).mem.read called.sp.toNat = called.mem.read called.sp.toNat :=
  ⟨rfl, rfl, rfl, rfl⟩

/-- BalancedPushesAndPopsRestore: three registers, one of them twice, under each policy. -/
theorem witness_balance :
    (start20.mem.wf = true ∧ [0, 1, 0].length ≤ start20.sp.toNat ∧
      start20.pc.toNat + 4 * [0, 1, 0].length ≤ 255) ∧
    ({ start20 with cfg := wrapCfg, sp := 1#8 }.cfg.rangePolicy = .wrap ∧ [0, 1, 0].length ≤ 256) := by
  decide

/-- A state whose next PUSH stores the byte at the `pc` that follows it (program P7's last PUSH). -/
def overwriting : State := { start20.setReg 0 0x01#8 with pc := 0x06#8, sp := 0x09#8 }

/-- The state `PUSH R0` leaves there. -/
def overwritten : State := { overwriting with mem := [(0x08, 0x01#8)], sp := 0x08#8, pc := 0x08#8 }

/-- A state whose next CALL goes to the cell just below the one it stores to. -/
def callingBelow : State := start20.setReg 1 0xF2#8

/-- PushedByteIsFetched: a PUSH whose cell is the next opcode byte, and a CALL to the cell before
the one it stores to. -/
theorem witness_pushed_byte :
    (overwriting.mem.wf = true ∧ overwriting.run = .running ∧ pushAddr overwriting = .ok 0x08#8 ∧
      exec (.push 0) overwriting = .next overwritten ∧ overwritten.run = .running ∧
      fetchAddr overwritten 0 = .ok 0x08#8) ∧
    (pushAddr callingBelow = .ok 0xF3#8 ∧
      exec (.call 1) callingBelow = .next { callingBelow with
        mem := [(0xF3, 0x22#8)], sp := 0xF3#8, pc := 0xF2#8 } ∧
      fetchAddr { callingBelow with mem := [(0xF3, 0x22#8)], sp := 0xF3#8, pc := 0xF2#8 } 1 =
        .ok 0xF3#8) :=
  ⟨⟨rfl, rfl, rfl, rfl, rfl, rfl⟩, rfl, rfl, rfl⟩

end Sys2Proof.Tests
end

section
/-!
PROOFS. Scope and primitives (spec/00_scope.md): `AddrOf`, `RegSel`, memory, the loader and the output.
-/
namespace Sys2Proof

/-! ### Register selection -/

/-- Selection answers the register `RegSel` names. -/
theorem selectReg_eq_ok {p : RangePolicy} {b : Byte} {r : Reg} :
    selectReg p b = .ok r ↔ regSel p b = some r := by
  cases h : regSel p b <;> simp [selectReg, h]

/-- Selection rejects exactly the byte for which `RegSel` names no register. -/
theorem selectReg_eq_error {p : RangePolicy} {b : Byte} :
    selectReg p b = .error (.registerRange b) ↔ regSel p b = none := by
  cases h : regSel p b <;> simp [selectReg, h]

/-- A selected register is the byte mod 8, under either policy. -/
theorem eq_ofNat_of_selectReg {p : RangePolicy} {b : Byte} {r : Reg} (h : selectReg p b = .ok r) :
    r = Fin.ofNat 8 b.toNat := by
  rcases selectReg_cases p b with ⟨e, -⟩ | ⟨e, -, -⟩
  · simpa [e] using h.symm
  · simp [e] at h

/-- Where the byte is in range, or under `wrap`, `RegSel` and the selection name the byte mod 8. -/
theorem regSel_selectReg_of_ok {p : RangePolicy} {b : Byte} (h : p = .wrap ∨ b.toNat < 8) :
    ∃ r, regSel p b = some r ∧ selectReg p b = .ok r ∧ r.val = b.toNat % 8 := by
  rcases selectReg_cases p b with ⟨e, -⟩ | ⟨-, hp, hb⟩
  · exact ⟨_, selectReg_eq_ok.mp e, e, Fin.val_ofNat ..⟩
  · rcases h with h | h
    · simp [h] at hp
    · omega

/-- Above 7 under `fault` neither `RegSel` nor the selection has a register. -/
theorem regSel_selectReg_of_fault {b : Byte} (h : 8 ≤ b.toNat) :
    regSel .fault b = none ∧ selectReg .fault b = .error (.registerRange b) := by
  rcases selectReg_cases .fault b with ⟨-, h' | h'⟩ | ⟨e, -, -⟩
  · cases h'
  · omega
  · exact ⟨selectReg_eq_error.mp e, e⟩

/-! ### The handler of a decoded instruction -/

/-- The dispatch table's handler of an instruction; HLT and UNK have none (rule R114). -/
def Instr.handler : Instr → Option Handler
  | .ldi _ _ => some .ldi
  | .prn _ => some .prn
  | .mul _ _ => some .mul
  | .add _ _ => some .add
  | .push _ => some .push
  | .pop _ => some .pop
  | .call _ => some .call
  | .ret => some .ret
  | .cmp _ _ => some .cmp
  | .jmp _ => some .jmp
  | .jeq _ => some .jeq
  | .jne _ => some .jne
  | .hlt => none
  | .unk _ => none

theorem Instr.handler_eq_prn {i : Instr} : i.handler = some .prn ↔ ∃ a, i = .prn a := by
  cases i <;> simp [Instr.handler]

theorem handler_of_decodeR {p : RangePolicy} {mk : Reg → Instr} {bs rest : List Byte} {i : Instr}
    {h : Handler} (hmk : ∀ a, (mk a).handler = some h) (e : decodeR p mk bs = .ok (i, rest)) :
    i.handler = some h := by
  obtain ⟨-, a, -, -, rfl⟩ := decodeR_ok e
  exact hmk a

theorem handler_of_decodeRR {p : RangePolicy} {mk : Reg → Reg → Instr} {bs rest : List Byte}
    {i : Instr} {h : Handler} (hmk : ∀ a b, (mk a b).handler = some h)
    (e : decodeRR p mk bs = .ok (i, rest)) : i.handler = some h := by
  obtain ⟨-, -, a, b, -, -, -, rfl⟩ := decodeRR_ok e
  exact hmk a b

/-- A handler's operand decoder delivers only that handler's instructions. -/
theorem handler_of_decodeOperands {p : RangePolicy} {h : Handler} {bs rest : List Byte} {i : Instr}
    (e : decodeOperands p h bs = .ok (i, rest)) : i.handler = some h := by
  cases h with
  | ldi =>
    obtain ⟨-, -, a, -, -, rfl⟩ := decodeRI_ok e
    rfl
  | ret =>
    cases e
    rfl
  | mul => exact handler_of_decodeRR (fun _ _ => rfl) e
  | add => exact handler_of_decodeRR (fun _ _ => rfl) e
  | cmp => exact handler_of_decodeRR (fun _ _ => rfl) e
  | prn => exact handler_of_decodeR (fun _ => rfl) e
  | push => exact handler_of_decodeR (fun _ => rfl) e
  | pop => exact handler_of_decodeR (fun _ => rfl) e
  | call => exact handler_of_decodeR (fun _ => rfl) e
  | jmp => exact handler_of_decodeR (fun _ => rfl) e
  | jeq => exact handler_of_decodeR (fun _ => rfl) e
  | jne => exact handler_of_decodeR (fun _ => rfl) e

/-- With distinct opcode bytes, a decoded instruction has a handler exactly when the opcode byte is that
handler's (rules R90, R110, R114). -/
theorem handler_of_decode {p : RangePolicy} {o : Opcodes} {op : Byte} {bs rest : List Byte} {i : Instr}
    (hd : o.Distinct) (e : decode p o (op :: bs) = .ok (i, rest)) (h : Handler) :
    i.handler = some h ↔ op = o.ofHandler h := by
  rcases decode_cases p o op bs with ⟨rfl, e'⟩ | ⟨g, rfl, -, e'⟩ | ⟨hop, e'⟩
  · obtain ⟨rfl, rfl⟩ : Instr.hlt = i ∧ bs = rest := by simpa [e'] using e
    simpa [Instr.handler] using (Opcodes.ofHandler_ne_hlt hd h).symm
  · rw [handler_of_decodeOperands (e' ▸ e), Option.some_inj]
    exact ⟨congrArg _, Opcodes.ofHandler_injective hd⟩
  · obtain ⟨rfl, rfl⟩ : Instr.unk op = i ∧ bs = rest := by simpa [e'] using e
    have hne : op ≠ o.ofHandler h := fun he => hop (he ▸ o.ofHandler_mem h)
    simpa [Instr.handler] using hne

end Sys2Proof

namespace Sys2Proof.Machine

open Sys2Proof.Rules

/-! ### Truncation and the register fault -/

/-- `trunc8` keeps the value mod 256 (spec/00_scope.md section 5). -/
theorem trunc8_toNat (v : Int) : ((trunc8 v).toNat : Int) = v % 256 := by
  simp only [trunc8, BitVec.toNat_ofInt]
  norm_num
  omega

/-- Taking a fault changes the run state alone (rule R190). -/
theorem raise_eq (s : State) (t : Trap) : raise s t = { s with run := .faulted t } := rfl

theorem onlyFaults_raise (s : State) (t : Trap) : OnlyFaults s (raise s t) := ⟨t, raise_eq s t⟩

/-- A step whose window the decoder rejects takes the rejection's fault (rules R19, R191). -/
theorem step_of_decode_error {s : State} {e : Reject} (hr : s.run = .running)
    (h : decode s.cfg.rangePolicy s.cfg.opcodes (fetchWindow s) = .error e) :
    step s = .next (raise s (rejectTrap s e)) := by
  rw [step_running hr, fetchInstr_error h, checked_error]

/-! ### The fetched instruction -/

/-- The window is the byte at `pc` and then a part of the two bytes that follow. -/
theorem fetchWindow_eq_cons (s : State) :
    ∃ bs, fetchWindow s = cell s 0 :: bs ∧ bs <+: [cell s 1, cell s 2] := by
  rcases fetchWindow_cases s with ⟨-, h⟩ | ⟨-, -, h⟩ | ⟨-, -, h⟩
  · exact ⟨_, h, by simp [cell, operandByte]⟩
  · exact ⟨_, h, by simp [cell, operandByte]⟩
  · exact ⟨_, h, by simp⟩

/-- With distinct opcode bytes, a fetched instruction has a handler exactly when the byte at `pc` is that
handler's. -/
theorem handler_of_fetchInstr {s : State} {i : Instr} (hd : s.cfg.opcodes.Distinct)
    (h : fetchInstr s = .ok i) (g : Handler) :
    i.handler = some g ↔ cell s 0 = s.cfg.opcodes.ofHandler g := by
  obtain ⟨rest, e⟩ := decode_of_fetchInstr h
  obtain ⟨bs, hw, -⟩ := fetchWindow_eq_cons s
  exact handler_of_decode hd (hw ▸ e) g

/-- A fetched PRN names the register its operand byte names. -/
theorem fetchInstr_prn_operand {s : State} {a : Reg} (hd : s.cfg.opcodes.Distinct)
    (h : fetchInstr s = .ok (.prn a)) : a = regNamed (cell s 1) := by
  have hop : cell s 0 = s.cfg.opcodes.ofHandler .prn := (handler_of_fetchInstr hd h .prn).mp rfl
  obtain ⟨rest, e⟩ := decode_of_fetchInstr h
  obtain ⟨bs, hw, hbs⟩ := fetchWindow_eq_cons s
  rw [hw, hop, decode_ofHandler hd] at e
  obtain ⟨o1, b, rfl, hsel, hi⟩ := decodeR_ok e
  obtain ⟨rfl, -⟩ : o1 = cell s 1 ∧ rest <+: [cell s 2] := by simpa using hbs
  cases hi
  exact eq_ofNat_of_selectReg hsel

/-! ### The output -/

/-- An instruction other than PRN leaves the output as it is (rule R33). -/
theorem exec_out_of_ne_prn {i : Instr} {s t : State} (hi : ∀ a, i ≠ .prn a)
    (h : exec i s = .next t) : t.out = s.out := by
  cases i with
  | ldi a imm => rcases execLdi_cases h with ⟨rfl, -⟩ | ⟨rfl, -⟩ <;> simp
  | prn a => exact absurd rfl (hi a)
  | mul a b => rcases execMul_cases h with ⟨rfl, -⟩ | ⟨rfl, -⟩ <;> simp
  | add a b => rcases execAdd_cases h with ⟨rfl, -⟩ | ⟨rfl, -⟩ <;> simp
  | push a => rcases execPush_cases h with ⟨rfl, -⟩ | ⟨rfl, -⟩ | ⟨rfl, -⟩ <;> simp
  | pop a => rcases execPop_cases h with ⟨rfl, -⟩ | ⟨rfl, -⟩ | ⟨rfl, -⟩ <;> simp
  | call a => rcases execCall_cases h with ⟨rfl, -⟩ | ⟨rfl, -⟩ | ⟨rfl, -⟩ <;> simp
  | ret => rcases execRet_cases h with ⟨rfl, -⟩ | ⟨rfl, -⟩ <;> simp
  | cmp a b => rcases execCmp_cases h with ⟨rfl, -⟩ | ⟨rfl, -⟩ <;> simp
  | jmp a => cases h; simp
  | jeq a => rcases branch_cases h with ⟨-, rfl⟩ | ⟨-, rfl, -⟩ | ⟨-, rfl, -⟩ <;> simp
  | jne a => rcases branch_cases h with ⟨-, rfl⟩ | ⟨-, rfl, -⟩ | ⟨-, rfl, -⟩ <;> simp
  | hlt => cases h; simp
  | unk op => rcases execUnk_cases h with ⟨rfl, -⟩ | ⟨rfl, -⟩ | ⟨rfl, -⟩ <;> simp

/-! ### The loader -/

/-- Loading leaves every cell outside the image's range alone. -/
theorem read_loadFrom_outside {vs : List Nat} {a b : Nat} {m : Memory}
    (h : b < a ∨ a + vs.length ≤ b) : (loadFrom a vs m).read b = m.read b := by
  induction vs generalizing a m with
  | nil => rfl
  | cons v vs ih =>
    rw [List.length_cons] at h
    rw [loadFrom, ih (by omega), Memory.read_write_other _ _ (by omega)]

/-- Loading within memory keeps the canonical form. -/
theorem loadFrom_wf {vs : List Nat} {a : Nat} {m : Memory} (hm : m.wf = true)
    (h : a + vs.length ≤ memSize) : (loadFrom a vs m).wf = true := by
  induction vs generalizing a m with
  | nil => exact hm
  | cons v vs ih =>
    rw [List.length_cons] at h
    exact ih (Memory.write_wf hm (by omega) _) (by omega)

/-- Loading within memory puts value `i` of the image, truncated to a byte, in cell `a + i`. -/
theorem read_loadFrom {vs : List Nat} {a : Nat} {m : Memory} (hm : m.wf = true)
    (h : a + vs.length ≤ memSize) (i : Nat) (hi : i < vs.length) :
    (loadFrom a vs m).read (a + i) = BitVec.ofNat 8 vs[i] := by
  induction vs generalizing a m i with
  | nil => cases hi
  | cons v vs ih =>
    rw [List.length_cons] at h hi
    rw [loadFrom]
    cases i with
    | zero => exact (read_loadFrom_outside (by omega)).trans (Memory.read_write_same hm a _)
    | succ i =>
      have hw := Memory.write_wf hm (a := a) (by omega) (BitVec.ofNat 8 v)
      simpa [Nat.add_comm 1, Nat.add_assoc] using ih hw (a := a + 1) (by omega) i (by omega)

/-- An image that fits and holds bytes is written from address 0, with `pc` and `sp` reset (rule R10). -/
theorem loadImage_of_bytes {img : List Nat} (s : State) (hlen : img.length ≤ memSize)
    (hb : ∀ v ∈ img, v ≤ 255) :
    loadImage img s = .next { s with mem := loadFrom 0 img s.mem, pc := 0#8, sp := 0xF4#8 } := by
  have hf : img.find? (fun v => decide (255 < v)) = none := by simpa using hb
  rw [loadImage, if_neg (Nat.not_lt.mpr hlen), hf]
  simp [State.setPc_eq, State.setSp_eq, pcReset, spReset]

theorem loadImage_of_tooLong {img : List Nat} (s : State) (hlen : memSize < img.length) :
    loadImage img s = .refused (.imageTooLong img.length) := if_pos hlen

/-- An image that fits is refused with its first value that is no byte. -/
theorem loadImage_of_byteRange {img : List Nat} (s : State) (hlen : img.length ≤ memSize)
    (hb : ∃ v ∈ img, 255 < v) :
    ∃ v ∈ img, 255 < v ∧ loadImage img s = .refused (.imageByteRange v) := by
  obtain ⟨v, hf⟩ : ∃ v, img.find? (fun v => decide (255 < v)) = some v :=
    Option.isSome_iff_exists.mp (by simpa using hb)
  refine ⟨v, List.mem_of_find?_eq_some hf, by simpa using List.find?_some hf, ?_⟩
  rw [loadImage, if_neg (Nat.not_lt.mpr hlen), hf]

/-! ### The statements -/

/-- Settles O36, by what the fetch of a PRN is and by what each instruction leaves of the output. -/
theorem outputGrowsOnlyByPrn : Obligations.OutputGrowsOnlyByPrn := by
  intro s t h hd
  obtain ⟨hrun, ⟨i, hf, he⟩ | ⟨e, -, rfl⟩⟩ := step_cases h
  · have hop := handler_of_fetchInstr hd hf .prn
    by_cases hi : ∃ a, i = .prn a
    · obtain ⟨a, rfl⟩ := hi
      obtain rfl := fetchInstr_prn_operand hd hf
      rcases execPrn_cases he with ⟨rfl, -⟩ | ⟨rfl, -, -⟩
      · exact .inl ⟨rfl, hop.mp rfl, hrun⟩
      · exact .inr ⟨rfl, .inr (onlyFaults_raise ..)⟩
    · refine .inr ⟨exec_out_of_ne_prn (fun a ha => hi ⟨a, ha⟩) he, .inl fun hc => hi ?_⟩
      exact Instr.handler_eq_prn.mp (hop.mpr hc)
  · exact .inr ⟨rfl, .inr (onlyFaults_raise ..)⟩

/-- Settles O47, by induction on the image (`read_loadFrom`, `read_loadFrom_outside`, `loadFrom_wf`). -/
theorem loaderWritesTheImage : Obligations.LoaderWritesTheImage := by
  intro s img hm
  refine ⟨fun hlen hb => ?_, loadImage_of_tooLong s, loadImage_of_byteRange s⟩
  have hfit : 0 + img.length ≤ memSize := (Nat.zero_add _).trans_le hlen
  refine ⟨_, loadImage_of_bytes s hlen hb, fun i hi => ?_,
    fun i hi => read_loadFrom_outside (by omega), loadFrom_wf hm hfit⟩
  have hv : img[i] ≤ 255 := hb _ (List.getElem_mem hi)
  have hread := read_loadFrom hm hfit i hi
  rw [Nat.zero_add] at hread
  rw [hread, BitVec.toNat_ofNat, Nat.mod_eq_of_lt (by omega)]

/-- Settles O37, by the two ranges of `AddrOf` and what `trunc8` keeps. -/
theorem addrOfRangesOrFaults : Obligations.AddrOfRangesOrFaults := by
  intro p v c
  refine ⟨fun hv => ⟨_, addrOf_inRange p c hv.1 (by omega), ?_⟩, ?_, ?_⟩
  · rw [trunc8_toNat]
    omega
  · rintro hv rfl
    exact addrOf_outOfRange c (by omega)
  · rintro - rfl
    exact ⟨_, addrOf_wrap v c, trunc8_toNat v⟩

/-- Settles O38, by the two answers of register selection and the step of a rejected window. -/
theorem regSelComparesTheWholeByte : Obligations.RegSelComparesTheWholeByte := by
  intro p b
  refine ⟨fun hb => ?_, ?_, ?_, fun _ => rfl, fun s hr he => step_of_decode_error hr he⟩
  · obtain ⟨r, hreg, hsel, hr⟩ := regSel_selectReg_of_ok (p := p) (b := b) (.inr (by omega))
    exact ⟨r, hreg, hsel, by omega⟩
  · rintro hb rfl
    exact regSel_selectReg_of_fault hb
  · rintro - rfl
    exact regSel_selectReg_of_ok (.inl rfl)

/-- Settles O39, by the laws of memory. -/
theorem readGivesTheLatestWrite : Obligations.ReadGivesTheLatestWrite := by
  intro s a v hm
  refine ⟨Memory.read_write_same hm _ v, fun b hb => ?_, State.memWrite_wf hm a v⟩
  exact Memory.read_write_other _ v fun h => hb (BitVec.eq_of_toNat_eq h)

end Sys2Proof.Machine
end

section
/-!
PROOFS. The state (spec/10_state.md): the invariant, the run state, the frames of the instructions, who reads
the flags and `sp`, and the state at the start of a run. Every instruction is brought into one form first:
the checks, which answer the next `pc` or a fault, and then the commits (`exec_eq_checked`).
-/
namespace Sys2Proof

open Sys2Proof.Machine

/-! ### The checks and the commits of an instruction -/

/-- The checks of an instruction in the order of rule R192: the `pc` after it, or the first fault. -/
def Instr.pcAfter : Instr → State → Except Trap Byte
  | .ldi _ _, s => nextPc s 3
  | .prn _, s => nextPc s 2
  | .mul _ _, s => nextPc s 3
  | .add _ _, s => nextPc s 3
  | .push _, s => (pushAddr s).bind fun _ => nextPc s 2
  | .pop _, s => (popAddr s).bind fun _ => nextPc s 2
  | .call a, s => (pushAddr s).bind fun _ => (nextPc s 2).map fun _ => s.getReg a
  | .ret, s => (popAddr s).map fun _ => stackTop s
  | .cmp _ _, s => nextPc s 3
  | .jmp a, s => .ok (s.getReg a)
  | .jeq a, s => if jeqTaken s.fl then .ok (s.getReg a) else nextPc s 2
  | .jne a, s => if jneTaken s.fl then .ok (s.getReg a) else nextPc s 2
  | .hlt, s => .ok s.pc
  | .unk op, s => if s.cfg.strictOpcode then .error ⟨.illegalOpcode, op.toNat⟩ else nextPc s 1

/-- The commits of an instruction whose checks pass (rule R19), but for `pc`. -/
def Instr.commit : Instr → State → State
  | .ldi a imm, s => s.setReg a imm
  | .prn a, s => s.emit (s.getReg a)
  | .mul a b, s => s.setReg a (aluProduct s.cfg (s.getReg a) (s.getReg b))
  | .add a b, s => s.setReg a (aluSum s.cfg (s.getReg a) (s.getReg b))
  | .push a, s => commitPush s (s.sp - 1#8) (s.getReg a)
  | .pop a, s => (s.setReg a (stackTop s)).setSp (s.sp + 1#8)
  | .call _, s => commitPush s (s.sp - 1#8) (s.pc + 2#8)
  | .ret, s => s.setSp (s.sp + 1#8)
  | .cmp a b, s => s.setFlags (cmpFlags (s.getReg a) (s.getReg b))
  | .jmp _, s => s
  | .jeq _, s => s
  | .jne _, s => s
  | .hlt, s => s.setRun .halted
  | .unk _, s => s

/-- The register an instruction writes (rule R38). -/
def Instr.dest : Instr → Option Reg
  | .ldi a _ | .mul a _ | .add a _ | .pop a => some a
  | _ => none

/-- The instructions that store a byte: PUSH and CALL (rules R51, R160). -/
def Instr.pushes : Instr → Bool
  | .push _ | .call _ => true
  | _ => false

/-- The instructions that read or write `sp`: PUSH, POP, CALL and RET (rule R24). -/
def Instr.usesStack : Instr → Bool
  | .push _ | .pop _ | .call _ | .ret => true
  | _ => false

/-- The instructions that write the flags: CMP (rule R30). -/
def Instr.compares : Instr → Bool
  | .cmp _ _ => true
  | _ => false

theorem Instr.usesStack_eq_false {i : Instr} (hpush : ∀ a, i ≠ .push a) (hpop : ∀ a, i ≠ .pop a)
    (hcall : ∀ a, i ≠ .call a) (hret : i ≠ .ret) : i.usesStack = false := by
  cases i with
  | push a => exact absurd rfl (hpush a)
  | pop a => exact absurd rfl (hpop a)
  | call a => exact absurd rfl (hcall a)
  | ret => exact absurd rfl hret
  | _ => rfl

theorem Instr.compares_eq_false {i : Instr} (h : ∀ a b, i ≠ .cmp a b) : i.compares = false := by
  cases i with
  | cmp a b => exact absurd rfl (h a b)
  | _ => rfl

theorem Instr.compares_eq_true {i : Instr} (h : i.compares = true) : ∃ a b, i = .cmp a b := by
  cases i with
  | cmp a b => exact ⟨a, b, rfl⟩
  | _ => cases h

/-- Only HLT's byte decodes to HLT, and it always does (rules R90, R110). -/
theorem decode_eq_hlt_iff {p : RangePolicy} {o : Opcodes} {op : Byte} {bs rest : List Byte} {i : Instr}
    (e : decode p o (op :: bs) = .ok (i, rest)) : i = .hlt ↔ op = o.hlt := by
  rcases decode_cases p o op bs with ⟨hop, e'⟩ | ⟨g, -, hop, e'⟩ | ⟨hop, e'⟩
  · obtain ⟨rfl, -⟩ : Instr.hlt = i ∧ bs = rest := by simpa [e'] using e
    simp [hop]
  · have hi := handler_of_decodeOperands (e' ▸ e)
    refine ⟨?_, fun h => absurd h hop⟩
    rintro rfl
    cases hi
  · obtain ⟨rfl, -⟩ : Instr.unk op = i ∧ bs = rest := by simpa [e'] using e
    exact ⟨nofun, fun h => absurd (h ▸ o.hlt_mem) hop⟩

end Sys2Proof

namespace Sys2Proof.Machine

open Sys2Proof.Rules

/-- Every instruction checks first and then commits, `pc` last (rules R19, R192). -/
theorem exec_eq_checked (i : Instr) (s : State) :
    exec i s = checked s (i.pcAfter s) fun npc => .next ((i.commit s).setPc npc) := by
  cases i with
  | push a =>
    rcases pushAddr_cases s with ⟨h, -⟩ | ⟨h, -⟩ <;>
      simp only [exec, execPush, Instr.pcAfter, h] <;> rfl
  | pop a =>
    rcases popAddr_cases s with ⟨h, -⟩ | ⟨h, -⟩ <;>
      simp only [exec, execPop, Instr.pcAfter, h] <;> rfl
  | call a =>
    rcases pushAddr_cases s with ⟨h, -⟩ | ⟨h, -⟩ <;>
      rcases nextPc_cases s 2 with ⟨h', -⟩ | ⟨h', -⟩ <;>
        simp only [exec, execCall, Instr.pcAfter, h, h'] <;> rfl
  | ret =>
    rcases popAddr_cases s with ⟨h, -⟩ | ⟨h, -⟩ <;>
      simp only [exec, execRet, Instr.pcAfter, h] <;> rfl
  | jeq a =>
    simp only [exec, execJeq, branch, Instr.pcAfter]
    split <;> rfl
  | jne a =>
    simp only [exec, execJne, branch, Instr.pcAfter]
    split <;> rfl
  | hlt => simp [exec, execHlt, Instr.pcAfter, Instr.commit, State.setPc_eq, State.setRun]
  | unk op =>
    simp only [exec, execUnk, Instr.pcAfter]
    split <;> rfl
  | _ => rfl

/-- An instruction either passes its checks and commits, or takes a fault. -/
theorem exec_cases {i : Instr} {s t : State} (h : exec i s = .next t) :
    (∃ npc, i.pcAfter s = .ok npc ∧ t = (i.commit s).setPc npc) ∨
      (∃ e, i.pcAfter s = .error e ∧ t = raise s e) := by
  rw [exec_eq_checked] at h
  exact (checked_cases h).imp_left fun ⟨npc, hp, ht⟩ => ⟨npc, hp, by simpa using ht.symm⟩

/-! ### What every instruction leaves unchanged -/

/-- What instruction `i` may not change from `s` to `t`, but for memory, output and run state (rule R38). -/
structure ExecFrame (i : Instr) (s t : State) : Prop where
  cfg : t.cfg = s.cfg
  reg : ∀ r, i.dest ≠ some r → t.getReg r = s.getReg r
  sp : i.usesStack = false → t.sp = s.sp
  fl : i.compares = false → t.fl = s.fl

theorem commit_cfg (i : Instr) (s : State) : (i.commit s).cfg = s.cfg := by
  cases i <;> rfl

theorem commit_getReg {i : Instr} {r : Reg} (h : i.dest ≠ some r) (s : State) :
    (i.commit s).getReg r = s.getReg r := by
  cases i with
  | ldi a imm => exact State.getReg_setReg_other s (mt (congrArg some) h.symm) _
  | mul a b => exact State.getReg_setReg_other s (mt (congrArg some) h.symm) _
  | add a b => exact State.getReg_setReg_other s (mt (congrArg some) h.symm) _
  | pop a => exact State.getReg_setReg_other s (mt (congrArg some) h.symm) _
  | _ => rfl

theorem commit_sp {i : Instr} (h : i.usesStack = false) (s : State) : (i.commit s).sp = s.sp := by
  cases i with
  | push a => cases h
  | pop a => cases h
  | call a => cases h
  | ret => cases h
  | _ => rfl

theorem commit_fl {i : Instr} (h : i.compares = false) (s : State) : (i.commit s).fl = s.fl := by
  cases i with
  | cmp a b => cases h
  | _ => rfl

theorem exec_frame {i : Instr} {s t : State} (h : exec i s = .next t) : ExecFrame i s t := by
  rcases exec_cases h with ⟨npc, -, rfl⟩ | ⟨e, -, rfl⟩
  · exact ⟨commit_cfg i s, fun r hr => commit_getReg hr s, fun hi => commit_sp hi s,
      fun hi => commit_fl hi s⟩
  · exact ⟨rfl, fun _ _ => rfl, fun _ => rfl, fun _ => rfl⟩

/-- Memory stays as it is, but where a PUSH or CALL stores a byte at the stack address it computes
(rules R38, R51). -/
theorem exec_mem_cases {i : Instr} {s t : State} (h : exec i s = .next t) :
    t.mem = s.mem ∨
      (i.pushes = true ∧ pushAddr s = .ok (s.sp - 1#8) ∧
        ∃ v, t.mem = s.mem.write (s.sp - 1#8).toNat v) := by
  cases i with
  | push a =>
    rcases execPush_cases h with ⟨rfl, hr⟩ | ⟨rfl, -⟩ | ⟨rfl, -⟩
    · exact .inr ⟨rfl, pushAddr_ok (hr.imp_right And.left), _, rfl⟩
    · exact .inl rfl
    · exact .inl rfl
  | call a =>
    rcases execCall_cases h with ⟨rfl, hr⟩ | ⟨rfl, -⟩ | ⟨rfl, -⟩
    · exact .inr ⟨rfl, pushAddr_ok (hr.imp_right And.left), _, rfl⟩
    · exact .inl rfl
    · exact .inl rfl
  | _ => rcases exec_cases h with ⟨_, -, rfl⟩ | ⟨_, -, rfl⟩ <;> exact .inl rfl

theorem exec_sameMemory {i : Instr} {s t : State} (hi : i.pushes = false) (h : exec i s = .next t) :
    SameMemory s t := by
  rcases exec_mem_cases h with hm | ⟨hp, -⟩
  · exact fun a => congrArg (Memory.read · a) hm
  · simp [hi] at hp

/-- Every instruction but HLT leaves the run state or only faults (rule R32). -/
theorem exec_run_of_ne_hlt {i : Instr} {s t : State} (hi : i ≠ .hlt) (h : exec i s = .next t) :
    t.run = s.run ∨ OnlyFaults s t := by
  rcases exec_run_cases h with ⟨-, hr⟩ | ⟨hi', -⟩ | ⟨-, e, rfl⟩
  · exact .inl hr
  · exact absurd hi' hi
  · exact .inr (onlyFaults_raise s e)

/-- The flags stay as they are or are those of a comparison (rule R30). -/
theorem exec_fl_cases {i : Instr} {s t : State} (h : exec i s = .next t) :
    t.fl = s.fl ∨ ∃ va vb, t.fl = cmpFlags va vb := by
  cases hi : i.compares with
  | false => exact .inl ((exec_frame h).fl hi)
  | true =>
    obtain ⟨a, b, rfl⟩ := Instr.compares_eq_true hi
    rcases execCmp_cases h with ⟨rfl, -⟩ | ⟨rfl, -⟩
    · exact .inr ⟨_, _, rfl⟩
    · exact .inl rfl

/-! ### What a step keeps -/

/-- A comparison sets exactly one flag (rule R143). -/
theorem oneFlagSet_cmpFlags (va vb : Byte) : oneFlagSet (cmpFlags va vb) = true := by
  rcases Nat.lt_trichotomy va.toNat vb.toNat with h | h | h
  · simp [oneFlagSet, cmpFlags, h, Nat.ne_of_lt h, Nat.lt_asymm h]
  · simp [oneFlagSet, cmpFlags, h]
  · simp [oneFlagSet, cmpFlags, h, Nat.ne_of_gt h, Nat.lt_asymm h]

theorem flagsExclusive_of_oneFlagSet {f : Flags} (h : oneFlagSet f = true) : flagsExclusive f = true := by
  simp only [oneFlagSet, beq_iff_eq] at h
  simp [flagsExclusive, h]

theorem step_cfg {s t : State} (h : step s = .next t) : t.cfg = s.cfg := by
  obtain ⟨-, ⟨i, -, he⟩ | ⟨e, -, rfl⟩⟩ := step_cases h
  · exact (exec_frame he).cfg
  · rfl

theorem step_fl_cases {s t : State} (h : step s = .next t) :
    t.fl = s.fl ∨ ∃ va vb, t.fl = cmpFlags va vb := by
  obtain ⟨-, ⟨i, -, he⟩ | ⟨e, -, rfl⟩⟩ := step_cases h
  · exact exec_fl_cases he
  · exact .inl rfl

theorem step_mem_wf {s t : State} (hm : s.mem.wf = true) (h : step s = .next t) : t.mem.wf = true := by
  obtain ⟨-, ⟨i, -, he⟩ | ⟨e, -, rfl⟩⟩ := step_cases h
  · rcases exec_mem_cases he with e | ⟨-, -, v, e⟩
    · rwa [e]
    · rw [e]
      exact Memory.write_wf hm (byte_lt_memSize _) v
  · exact hm

theorem step_flagsExclusive {s t : State} (hf : flagsExclusive s.fl = true) (h : step s = .next t) :
    flagsExclusive t.fl = true := by
  rcases step_fl_cases h with e | ⟨va, vb, e⟩
  · rwa [e]
  · rw [e]
    exact flagsExclusive_of_oneFlagSet (oneFlagSet_cmpFlags va vb)

theorem step_oneFlagSet {s t : State} (hf : oneFlagSet s.fl = true) (h : step s = .next t) :
    oneFlagSet t.fl = true := by
  rcases step_fl_cases h with e | ⟨va, vb, e⟩
  · rwa [e]
  · rw [e]
    exact oneFlagSet_cmpFlags va vb

theorem State.inv_iff {s : State} :
    s.inv = true ↔ s.mem.wf = true ∧ flagsExclusive s.fl = true ∧ s.cfg.opcodes.Distinct := by
  simp [State.inv, and_assoc]

/-- A fetched instruction is HLT exactly when the byte at `pc` is HLT's. -/
theorem fetchInstr_eq_hlt_iff {s : State} {i : Instr} (h : fetchInstr s = .ok i) :
    i = .hlt ↔ cell s 0 = s.cfg.opcodes.hlt := by
  obtain ⟨rest, e⟩ := decode_of_fetchInstr h
  obtain ⟨bs, hw, -⟩ := fetchWindow_eq_cons s
  exact decode_eq_hlt_iff (hw ▸ e)

/-- HLT's byte at `pc` is fetched without a fault: it has no operand bytes. -/
theorem fetchInstr_of_hlt {s : State} (h : cell s 0 = s.cfg.opcodes.hlt) : fetchInstr s = .ok .hlt := by
  obtain ⟨bs, hw, -⟩ := fetchWindow_eq_cons s
  exact fetchInstr_ok (by rw [hw, h, decode_hlt])

theorem cell_zero (s : State) : cell s 0 = s.mem.read s.pc.toNat := by
  rw [cell, Nat.add_zero, Nat.mod_eq_of_lt s.pc.isLt]

/-! ### What an instruction does not read -/

/-- An instruction whose checks and commits do not see a change of the state does the same in the changed
state and carries the change through. -/
theorem exec_commutes {i : Instr} {s t : State} (g : State → State)
    (hpc : i.pcAfter (g s) = i.pcAfter s)
    (hcommit : ∀ npc, (i.commit (g s)).setPc npc = g ((i.commit s).setPc npc))
    (hraise : ∀ e, raise (g s) e = g (raise s e)) (h : exec i s = .next t) :
    exec i (g s) = .next (g t) := by
  rw [exec_eq_checked, hpc]
  rcases exec_cases h with ⟨npc, hp, rfl⟩ | ⟨e, hp, rfl⟩
  · rw [hp, checked_ok, hcommit]
  · rw [hp, checked_error, hraise]

/-- The checks see the flags in JEQ, by `E`, and in JNE, by `G` and `L`, alone (rules R171, R172). -/
theorem pcAfter_withFlags {i : Instr} {s : State} {f : Flags} (hjeq : ∀ a, i = .jeq a → f.e = s.fl.e)
    (hjne : ∀ a, i = .jne a → f.g = s.fl.g ∧ f.l = s.fl.l) :
    i.pcAfter { s with fl := f } = i.pcAfter s := by
  cases i with
  | jeq a =>
    have hf : jeqTaken f = jeqTaken s.fl := hjeq a rfl
    simp only [Instr.pcAfter, hf]
    rfl
  | jne a =>
    obtain ⟨hg, hl⟩ := hjne a rfl
    have hf : jneTaken f = jneTaken s.fl := by rw [jneTaken, jneTaken, hg, hl]
    simp only [Instr.pcAfter, hf]
    rfl
  | _ => rfl

/-- An instruction other than CMP, run with flags that agree where a branch looks, does the same and leaves
those flags (rule R30). -/
theorem exec_withFlags {i : Instr} {s t : State} {f : Flags} (hcmp : i.compares = false)
    (hjeq : ∀ a, i = .jeq a → f.e = s.fl.e) (hjne : ∀ a, i = .jne a → f.g = s.fl.g ∧ f.l = s.fl.l)
    (h : exec i s = .next t) : exec i { s with fl := f } = .next { t with fl := f } := by
  refine exec_commutes (fun u => { u with fl := f }) (pcAfter_withFlags hjeq hjne) (fun npc => ?_)
    (fun _ => rfl) h
  cases i with
  | cmp a b => cases hcmp
  | _ => rfl

/-- CMP overwrites the flags where it completes and keeps them where it faults (rules R143, R190). -/
theorem execCmp_withFlags {a b : Reg} {s t : State} (f : Flags) (h : exec (.cmp a b) s = .next t) :
    (PcFits s 3 → exec (.cmp a b) { s with fl := f } = .next t) ∧
    (¬PcFits s 3 → exec (.cmp a b) { s with fl := f } = .next { t with fl := f }) := by
  have hpc : Instr.pcAfter (.cmp a b) { s with fl := f } = nextPc s 3 := rfl
  rw [exec_eq_checked] at h ⊢
  rw [hpc]
  constructor
  · intro hfit
    rw [← h, Instr.pcAfter, nextPc_ok hfit]
    rfl
  · intro hfit
    rcases nextPc_cases s 3 with ⟨-, hr⟩ | ⟨hn, -⟩
    · exact absurd hr hfit
    · simp only [Instr.pcAfter, hn] at h ⊢
      cases h
      rfl

/-- An instruction that is none of the stack's does the same with another `sp` and leaves it (rule R24). -/
theorem exec_withSp {i : Instr} {s t : State} (v : Byte) (hi : i.usesStack = false)
    (h : exec i s = .next t) : exec i { s with sp := v } = .next { t with sp := v } := by
  refine exec_commutes (fun u => { u with sp := v }) ?_ (fun npc => ?_) (fun _ => rfl) h
  all_goals
    cases i with
    | push a => cases hi
    | pop a => cases hi
    | call a => cases hi
    | ret => cases hi
    | _ => rfl

/-! ### The start of a run -/

/-- After construction every register but `x[7]` is zero (rule R220). -/
theorem constructed_getReg (c : Config) {r : Reg} (h : r ≠ 7) : (State.constructed c).getReg r = 0#8 := by
  have hx : (State.constructed c).x = (Vector.replicate 8 xReset).set 7 c.r7Reset := rfl
  have hr : 7 ≠ r.val := fun e => h (Fin.ext e.symm)
  simp [State.getReg, hx, Vector.getElem_set_ne _ _ hr, xReset]

/-- Launching an image that is loaded starts the loaded machine. -/
theorem launch_of_loadImage {c : Config} {img : List Nat} {s : State}
    (h : loadImage img (State.constructed c) = .next s) :
    launch c img = .next (start (decide (1 ≤ img.length)) s) := by
  rw [launch, h]

/-! ### The statements -/

/-- Settles O33, by what a step keeps of each part of the invariant. -/
theorem stepKeepsTheInvariant : Obligations.StepKeepsTheInvariant := by
  intro s t hs h
  obtain ⟨hm, hf, hd⟩ := State.inv_iff.mp hs
  exact State.inv_iff.mpr ⟨step_mem_wf hm h, step_flagsExclusive hf h, by rwa [step_cfg h]⟩

/-- Settles O29: only HLT halts, and only HLT's byte is fetched as HLT. -/
theorem onlyHltHalts : Obligations.OnlyHltHalts := by
  intro s t h
  rw [← cell_zero]
  obtain ⟨hrun, ⟨i, hf, he⟩ | ⟨e, hf, rfl⟩⟩ := step_cases h
  · have hhlt := fetchInstr_eq_hlt_iff hf
    rcases exec_run_cases he with ⟨hi, hr⟩ | ⟨hi, hr⟩ | ⟨hi, e, rfl⟩
    · simp [← hhlt, hi, hr, hrun]
    · simp [← hhlt, hi, hr]
    · simp [← hhlt, hi]
  · have hne : cell s 0 ≠ s.cfg.opcodes.hlt := fun hc => by simp [fetchInstr_of_hlt hc] at hf
    simp [hne]

/-- Settles O35, by what a comparison leaves of the flags. -/
theorem exactlyOneFlagFromTheFirstCmpOn : Obligations.ExactlyOneFlagFromTheFirstCmpOn := by
  refine ⟨fun s t hf h => step_oneFlagSet hf h, fun s t a b hfit h => ?_⟩
  rcases execCmp_cases h with ⟨rfl, -⟩ | ⟨-, hp, hr⟩
  · exact oneFlagSet_cmpFlags ..
  · rcases hfit with hw | hfit
    · simp [hw] at hp
    · omega

/-- Settles O40, by the frame of the instructions whose one destination is a register. -/
theorem registerWritingFrame : Obligations.RegisterWritingFrame := by
  intro s t a i hi h
  obtain ⟨hdest, hstack, hcmp⟩ : i.dest = some a ∧ i.usesStack = false ∧ i.compares = false := by
    rcases hi with ⟨imm, rfl⟩ | ⟨b, rfl⟩ | ⟨b, rfl⟩ <;> exact ⟨rfl, rfl, rfl⟩
  obtain ⟨hpush, hprn, hhlt⟩ : i.pushes = false ∧ (∀ r, i ≠ .prn r) ∧ i ≠ .hlt := by
    rcases hi with ⟨imm, rfl⟩ | ⟨b, rfl⟩ | ⟨b, rfl⟩ <;> exact ⟨rfl, nofun, nofun⟩
  obtain ⟨hcfg, hreg, hsp, hfl⟩ := exec_frame h
  exact ⟨fun r hr => hreg r (by simpa [hdest] using hr.symm), hsp hstack, hfl hcmp,
    exec_out_of_ne_prn hprn h, hcfg, exec_sameMemory hpush h, exec_run_of_ne_hlt hhlt h⟩

/-- Settles O41, by the frame of the instructions that write no register and store no byte. -/
theorem noRegisterWritingFrame : Obligations.NoRegisterWritingFrame := by
  intro s t i hi h
  obtain ⟨hdest, hpush, hstack⟩ :
      i.dest = none ∧ i.pushes = false ∧ (i ≠ .ret → i.usesStack = false) := by
    rcases hi with ⟨a, rfl⟩ | ⟨a, b, rfl⟩ | ⟨a, rfl⟩ | ⟨a, rfl⟩ | ⟨a, rfl⟩ | rfl | rfl | ⟨op, rfl⟩ <;>
      simp [Instr.dest, Instr.pushes, Instr.usesStack]
  obtain ⟨hcfg, hreg, hsp, hfl⟩ := exec_frame h
  exact ⟨fun r => hreg r (by simp [hdest]), hcfg, exec_sameMemory hpush h, fun hi => hsp (hstack hi),
    fun hi => hfl (Instr.compares_eq_false hi), fun hi => exec_out_of_ne_prn hi h,
    fun hi => exec_run_of_ne_hlt hi h⟩

/-- Settles O42, by POP's frame. -/
theorem popFrame : Obligations.PopFrame := by
  intro s t a h
  have hprn : ∀ r, Instr.pop a ≠ .prn r := nofun
  have hhlt : Instr.pop a ≠ .hlt := nofun
  obtain ⟨hcfg, hreg, -, hfl⟩ := exec_frame h
  exact ⟨fun r hr => hreg r fun e => hr (Option.some.inj e).symm, hfl rfl, exec_out_of_ne_prn hprn h,
    hcfg, exec_sameMemory rfl h, exec_run_of_ne_hlt hhlt h⟩

/-- Settles O43, by the one store a PUSH or CALL makes. -/
theorem pushingFrame : Obligations.PushingFrame := by
  intro s t a i hi h
  obtain ⟨hdest, hcmp, hprn, hhlt⟩ :
      i.dest = none ∧ i.compares = false ∧ (∀ r, i ≠ .prn r) ∧ i ≠ .hlt := by
    rcases hi with rfl | rfl <;> exact ⟨rfl, rfl, nofun, nofun⟩
  obtain ⟨hcfg, hreg, -, hfl⟩ := exec_frame h
  refine ⟨fun r => hreg r (by simp [hdest]), hfl hcmp, exec_out_of_ne_prn hprn h, hcfg,
    fun nsp hn b hb => ?_, fun e he => ?_, exec_run_of_ne_hlt hhlt h⟩
  · rcases exec_mem_cases h with hm | ⟨-, hpa, v, hm⟩
    · rw [hm]
    · obtain rfl : nsp = s.sp - 1#8 := Except.ok.inj (hn.symm.trans hpa)
      rw [hm, Memory.read_write_other _ v hb]
  · rcases exec_mem_cases h with hm | ⟨-, hpa, -⟩
    · exact fun b => congrArg (Memory.read · b) hm
    · simp [he] at hpa

/-- Settles O44: the flags enter an instruction only through the branch conditions. -/
theorem flagsAreReadOnlyByBranches : Obligations.FlagsAreReadOnlyByBranches := by
  refine ⟨fun s t f i hjeq hjne hcmp h => ?_, fun s t f a b h => execCmp_withFlags f h,
    fun s t f a he h => exec_withFlags rfl (fun _ _ => he) nofun h,
    fun s t f a hg hl h => exec_withFlags rfl nofun (fun _ _ => ⟨hg, hl⟩) h⟩
  exact exec_withFlags (Instr.compares_eq_false hcmp) (fun a e => absurd e (hjeq a))
    (fun a e => absurd e (hjne a)) h

/-- Settles O45: `sp` enters an instruction only through the stack addresses. -/
theorem stackPointerIsOnlyTheStackInstructions :
    Obligations.StackPointerIsOnlyTheStackInstructions := by
  intro s t v i hpush hpop hcall hret h
  have hi := Instr.usesStack_eq_false hpush hpop hcall hret
  exact ⟨(exec_frame h).sp hi, exec_withSp v hi h⟩

/-- Settles O48: the loader writes the image into the constructed machine, and `start` sets the run state
alone. -/
theorem startOfRunValues : Obligations.StartOfRunValues := by
  intro c img hlen hb
  obtain ⟨m, hload, himg, hrest, -⟩ := (loaderWritesTheImage (State.constructed c) img rfl).1 hlen hb
  refine ⟨_, launch_of_loadImage hload, himg, hrest, fun r hr => constructed_getReg c hr,
    rfl, rfl, rfl, rfl, rfl, rfl, ?_⟩
  simp [start]

/-- Settles O28, by the run states `step` tests. -/
theorem noStepFromHaltedOrFaulted : Obligations.NoStepFromHaltedOrFaulted := by
  intro s
  exact ⟨fun h => by rw [step, h], fun tr h => by rw [step, h]⟩

/-- Settles O34: memory is empty, no flag is set and the standard opcode bytes are distinct. -/
theorem resetMeetsTheInvariant : Obligations.ResetMeetsTheInvariant :=
  State.inv_iff.mpr ⟨rfl, rfl, by decide⟩

end Sys2Proof.Machine
end

section
/-!
PROOFS. Memory (spec/20_memory.md): instruction-fetch coherence (rule R63). A PUSH or CALL that completes
leaves its byte in the cell at the stack address, and the fetch window reads that cell.
-/
namespace Sys2Proof.Machine

/-! ### The bytes of the fetch window -/

/-- The window reaches every one of its three byte positions whose address exists or wraps. -/
theorem fetchWindow_getElem?_of_inRange {s : State} {k : Nat} (hk : k < 3)
    (h : s.cfg.rangePolicy = .wrap ∨ s.pc.toNat + k ≤ 255) :
    (fetchWindow s)[k]? = some (operandByte s k) := by
  rcases fetchWindow_cases s with ⟨-, hw⟩ | ⟨hp, hpc, hw⟩ | ⟨hp, hpc, hw⟩
  · rw [hw]
    interval_cases k <;> rfl
  · have hle : s.pc.toNat + k ≤ 255 := h.resolve_left (by simp [hp])
    have hk2 : k < 2 := by omega
    rw [hw]
    interval_cases k <;> rfl
  · have hle : s.pc.toNat + k ≤ 255 := h.resolve_left (by simp [hp])
    obtain rfl : k = 0 := by omega
    rw [hw]
    rfl

/-- Byte `k` of the window is the byte in the cell its address names (rules R57, R80). -/
theorem fetchWindow_getElem?_of_fetchAddr {s : State} {k : Nat} {b : Byte} (hk : k < 3)
    (h : fetchAddr s k = .ok b) : (fetchWindow s)[k]? = some (s.memRead b) := by
  rcases fetchAddr_cases s k with ⟨e, hin⟩ | ⟨e, -⟩
  · obtain rfl : s.pc + BitVec.ofNat 8 k = b := Except.ok.inj (e.symm.trans h)
    rw [read_pc_add, fetchWindow_getElem?_of_inRange hk hin]
  · simp [e] at h

/-! ### The byte a push leaves in memory -/

/-- The commits of a push leave the stored byte in the cell they store it to (rule R160). -/
theorem memRead_commitPush {s : State} (hm : s.mem.wf = true) (nsp v : Byte) :
    (commitPush s nsp v).memRead nsp = v := Memory.read_write_same hm _ v

/-- A PUSH or CALL that completes commits a push at the stack address it computes and then sets `pc`
(rules R161, R173). -/
theorem exec_push_or_call_running {s t : State} {a : Reg} {nsp v : Byte}
    (hpa : pushAddr s = .ok nsp)
    (h : (exec (.push a) s = .next t ∧ v = s.getReg a) ∨ (exec (.call a) s = .next t ∧ v = s.pc + 2#8))
    (ht : t.run = .running) : ∃ npc, t = (commitPush s nsp v).setPc npc := by
  obtain rfl : nsp = s.sp - 1#8 := by
    rcases pushAddr_cases s with ⟨e, -⟩ | ⟨e, -⟩
    · exact Except.ok.inj (hpa.symm.trans e)
    · simp [e] at hpa
  rcases h with ⟨h, rfl⟩ | ⟨h, rfl⟩
  · rcases execPush_cases h with ⟨rfl, -⟩ | ⟨rfl, -⟩ | ⟨rfl, -⟩
    · exact ⟨_, rfl⟩
    · cases ht
    · cases ht
  · rcases execCall_cases h with ⟨rfl, -⟩ | ⟨rfl, -⟩ | ⟨rfl, -⟩
    · exact ⟨_, rfl⟩
    · cases ht
    · cases ht

/-! ### The statement -/

/-- Settles O51: the window reads the cell the push wrote, and writing `pc` leaves memory alone. -/
theorem pushedByteIsFetched : Obligations.PushedByteIsFetched := by
  intro s t a nsp v hm _ hpa h ht k hk hf
  obtain ⟨npc, rfl⟩ := exec_push_or_call_running hpa h ht
  rw [fetchWindow_getElem?_of_fetchAddr hk hf]
  exact congrArg some (memRead_commitPush hm nsp v)

end Sys2Proof.Machine
end

section
/-!
PROOFS. Encoding and decoding (spec/30_encoding.md): the round trips, the unknown opcode bytes, how many bytes
the decoder reads and what it rejects. Each operand format is treated once; the dispatch over the handlers and
the opcode byte then carries the fact up to `decode`.
-/
namespace Sys2Proof

/-! ### The bytes of an instruction -/

/-- The operand bytes the encoder writes after the opcode byte (rules R81, R83, R84). -/
def Instr.operands : Instr → List Byte
  | .ldi a imm => [regByte a, imm]
  | .mul a b | .add a b | .cmp a b => [regByte a, regByte b]
  | .prn a | .push a | .pop a | .call a | .jmp a | .jeq a | .jne a => [regByte a]
  | .ret | .hlt | .unk _ => []

/-- An instruction of the dispatch table is encoded as its handler's byte and its operands. -/
theorem encode_of_handler {i : Instr} {h : Handler} (hi : i.handler = some h) (o : Opcodes) :
    encode o i = o.ofHandler h :: i.operands := by
  cases i with
  | hlt | unk => cases hi
  | _ => cases hi; rfl

/-- An instruction of the dispatch table is well-formed: only UNK can be ill-formed. -/
theorem wellFormed_of_handler {i : Instr} {h : Handler} (hi : i.handler = some h) (o : Opcodes) :
    i.wellFormed o = true := by
  cases i with
  | unk => cases hi
  | _ => rfl

/-- UNK is well-formed exactly where its byte is none of the thirteen (rule R112). -/
theorem wellFormed_unk {o : Opcodes} {op : Byte} : (Instr.unk op).wellFormed o = true ↔ op ∉ o.bytes := by
  simp [Instr.wellFormed]

open Laws.EncodedLength in
/-- The encoding has the length of the instruction's format, 1, 2 or 3 (rules R80, R82). -/
theorem encodedLength : ∀ i : Instr, Statement i
  | .ldi a imm => ldi a imm
  | .prn a => prn a
  | .mul a b => mul a b
  | .add a b => add a b
  | .push a => push a
  | .pop a => pop a
  | .call a => call a
  | .ret => ret
  | .cmp a b => cmp a b
  | .jmp a => jmp a
  | .jeq a => jeq a
  | .jne a => jne a
  | .hlt => hlt
  | .unk op => unk op

/-! ### Decoding what was encoded -/

theorem decodeR_regByte (p : RangePolicy) (mk : Reg → Instr) (a : Reg) (rest : List Byte) :
    decodeR p mk (regByte a :: rest) = .ok (mk a, rest) := by
  simp [decodeR]

theorem decodeRR_regByte (p : RangePolicy) (mk : Reg → Reg → Instr) (a b : Reg) (rest : List Byte) :
    decodeRR p mk (regByte a :: regByte b :: rest) = .ok (mk a b, rest) := by
  simp [decodeRR]

theorem decodeRI_regByte (p : RangePolicy) (mk : Reg → Byte → Instr) (a : Reg) (imm : Byte)
    (rest : List Byte) : decodeRI p mk (regByte a :: imm :: rest) = .ok (mk a imm, rest) := by
  simp [decodeRI]

/-- A handler's operand decoder inverts the encoder's operands, under either policy. -/
theorem decodeOperands_operands {i : Instr} {h : Handler} (hi : i.handler = some h) (p : RangePolicy)
    (rest : List Byte) : decodeOperands p h (i.operands ++ rest) = .ok (i, rest) := by
  cases i with
  | ldi a imm => cases hi; exact decodeRI_regByte p _ a imm rest
  | mul a b | add a b | cmp a b => cases hi; exact decodeRR_regByte p _ a b rest
  | prn a | push a | pop a | call a | jmp a | jeq a | jne a =>
    cases hi; exact decodeR_regByte p _ a rest
  | ret => cases hi; rfl
  | hlt | unk => cases hi

/-! ### What was read, where decoding succeeds -/

/-- `rest` is `bs` without as many bytes as `enc` has, and under `fault` those bytes are `enc`. -/
def ReadsAs (p : RangePolicy) (enc bs rest : List Byte) : Prop :=
  ∃ read, bs = read ++ rest ∧ read.length = enc.length ∧ (p = .fault → read = enc)

theorem ReadsAs.refl (p : RangePolicy) (enc rest : List Byte) : ReadsAs p enc (enc ++ rest) rest :=
  ⟨enc, rfl, rfl, fun _ => rfl⟩

theorem ReadsAs.cons {p : RangePolicy} {enc bs rest : List Byte} (b : Byte) (h : ReadsAs p enc bs rest) :
    ReadsAs p (b :: enc) (b :: bs) rest := by
  obtain ⟨read, rfl, hlen, hf⟩ := h
  exact ⟨b :: read, rfl, by simp [hlen], fun hp => by rw [hf hp]⟩

/-- A register-select byte that selects a register reads as the byte the encoder writes for it. -/
theorem ReadsAs.cons_selectReg {p : RangePolicy} {enc bs rest : List Byte} {b : Byte} {r : Reg}
    (e : selectReg p b = .ok r) (h : ReadsAs p enc bs rest) :
    ReadsAs p (regByte r :: enc) (b :: bs) rest := by
  obtain ⟨read, rfl, hlen, hf⟩ := h
  refine ⟨b :: read, rfl, by simp [hlen], ?_⟩
  rintro rfl
  rw [regByte_of_selectReg e, hf rfl]

theorem readsAs_of_decodeR {p : RangePolicy} {mk : Reg → Instr} {bs rest : List Byte} {i : Instr}
    (hmk : ∀ a, (mk a).operands = [regByte a]) (e : decodeR p mk bs = .ok (i, rest)) :
    ReadsAs p i.operands bs rest := by
  obtain ⟨o1, a, rfl, ha, rfl⟩ := decodeR_ok e
  rw [hmk]
  exact (ReadsAs.refl p [] rest).cons_selectReg ha

theorem readsAs_of_decodeRR {p : RangePolicy} {mk : Reg → Reg → Instr} {bs rest : List Byte} {i : Instr}
    (hmk : ∀ a b, (mk a b).operands = [regByte a, regByte b]) (e : decodeRR p mk bs = .ok (i, rest)) :
    ReadsAs p i.operands bs rest := by
  obtain ⟨o1, o2, a, b, rfl, ha, hb, rfl⟩ := decodeRR_ok e
  rw [hmk]
  exact ((ReadsAs.refl p [] rest).cons_selectReg hb).cons_selectReg ha

theorem readsAs_of_decodeRI {p : RangePolicy} {mk : Reg → Byte → Instr} {bs rest : List Byte} {i : Instr}
    (hmk : ∀ a imm, (mk a imm).operands = [regByte a, imm]) (e : decodeRI p mk bs = .ok (i, rest)) :
    ReadsAs p i.operands bs rest := by
  obtain ⟨o1, imm, a, rfl, ha, rfl⟩ := decodeRI_ok e
  rw [hmk]
  exact (ReadsAs.refl p [imm] rest).cons_selectReg ha

/-- A handler's operand decoder reads the operands of the instruction it answers. -/
theorem readsAs_of_decodeOperands {p : RangePolicy} {h : Handler} {bs rest : List Byte} {i : Instr}
    (e : decodeOperands p h bs = .ok (i, rest)) : ReadsAs p i.operands bs rest := by
  cases h with
  | ldi => exact readsAs_of_decodeRI (fun _ _ => rfl) e
  | mul | add | cmp => exact readsAs_of_decodeRR (fun _ _ => rfl) e
  | prn | push | pop | call | jmp | jeq | jne => exact readsAs_of_decodeR (fun _ => rfl) e
  | ret => cases e; exact .refl p [] _

/-- What decodes is well-formed and was read as its encoding (rules R80 to R86). -/
theorem wellFormed_and_readsAs_of_decode {p : RangePolicy} {o : Opcodes} {bs rest : List Byte} {i : Instr}
    (e : decode p o bs = .ok (i, rest)) : i.wellFormed o = true ∧ ReadsAs p (encode o i) bs rest := by
  cases bs with
  | nil => cases e
  | cons op bs =>
    rcases decode_cases p o op bs with ⟨rfl, e'⟩ | ⟨h, rfl, -, e'⟩ | ⟨hop, e'⟩
    · obtain ⟨rfl, rfl⟩ : Instr.hlt = i ∧ bs = rest := by simpa [e'] using e
      exact ⟨rfl, .refl p [o.hlt] bs⟩
    · have e'' := e' ▸ e
      have hi := handler_of_decodeOperands e''
      rw [encode_of_handler hi]
      exact ⟨wellFormed_of_handler hi o, (readsAs_of_decodeOperands e'').cons _⟩
    · obtain ⟨rfl, rfl⟩ : Instr.unk op = i ∧ bs = rest := by simpa [e'] using e
      exact ⟨wellFormed_unk.mpr hop, .refl p [op] bs⟩

/-! ### What is rejected -/

/-- What a rejection says of the policy and of the operand bytes `bs`: fewer than two of them, or, under
`fault`, a bad one among the first two. -/
def Reject.Explains (p : RangePolicy) (bs : List Byte) : Reject → Prop
  | .missingByte => bs.length < 2
  | .registerRange b => p = .fault ∧ 8 ≤ b.toNat ∧ b ∈ bs.take 2

theorem explains_of_selectReg {p : RangePolicy} {b : Byte} {bs : List Byte} {e : Reject}
    (hb : b ∈ bs.take 2) (h : selectReg p b = .error e) : e.Explains p bs := by
  rcases selectReg_cases p b with ⟨h', -⟩ | ⟨h', hp, hle⟩
  · simp [h'] at h
  · obtain rfl : Reject.registerRange b = e := by simpa [h'] using h
    exact ⟨hp, hle, hb⟩

theorem explains_of_decodeR {p : RangePolicy} {mk : Reg → Instr} {bs : List Byte} {e : Reject}
    (h : decodeR p mk bs = .error e) : e.Explains p bs := by
  unfold decodeR at h
  split at h
  · split at h
    · cases h
    · next h1 => cases h; exact explains_of_selectReg (by simp) h1
  · cases h; simp [Reject.Explains]

theorem explains_of_decodeRR {p : RangePolicy} {mk : Reg → Reg → Instr} {bs : List Byte} {e : Reject}
    (h : decodeRR p mk bs = .error e) : e.Explains p bs := by
  unfold decodeRR at h
  split at h
  · split at h
    · next h1 => cases h; exact explains_of_selectReg (by simp) h1
    · split at h
      · cases h
      · next h2 => cases h; exact explains_of_selectReg (by simp) h2
  · cases h; simp [Reject.Explains]
  · cases h; simp [Reject.Explains]

theorem explains_of_decodeRI {p : RangePolicy} {mk : Reg → Byte → Instr} {bs : List Byte} {e : Reject}
    (h : decodeRI p mk bs = .error e) : e.Explains p bs := by
  unfold decodeRI at h
  split at h
  · split at h
    · cases h
    · next h1 => cases h; exact explains_of_selectReg (by simp) h1
  · cases h; simp [Reject.Explains]
  · cases h; simp [Reject.Explains]

theorem explains_of_decodeOperands {p : RangePolicy} {h : Handler} {bs : List Byte} {e : Reject}
    (hd : decodeOperands p h bs = .error e) : e.Explains p bs := by
  cases h with
  | ldi => exact explains_of_decodeRI hd
  | mul | add | cmp => exact explains_of_decodeRR hd
  | prn | push | pop | call | jmp | jeq | jne => exact explains_of_decodeR hd
  | ret => cases hd

/-- The decoder rejects for a missing byte or a bad register-select byte only (rules R83, R85, R89). -/
theorem explains_of_decode {p : RangePolicy} {o : Opcodes} {bs : List Byte} {e : Reject}
    (h : decode p o bs = .error e) : e.Explains p (bs.drop 1) := by
  cases bs with
  | nil => cases h; simp [Reject.Explains]
  | cons op bs =>
    rcases decode_cases p o op bs with ⟨-, h'⟩ | ⟨g, -, -, h'⟩ | ⟨-, h'⟩
    · simp [h'] at h
    · exact explains_of_decodeOperands (h' ▸ h)
    · simp [h'] at h

/-! ### The unknown bytes -/

/-- All 256 byte values. -/
def allBytes : List Byte := (List.range 256).map (BitVec.ofNat 8)

theorem mem_allBytes (b : Byte) : b ∈ allBytes :=
  List.mem_map.mpr ⟨b.toNat, List.mem_range.mpr b.isLt, by simp⟩

theorem allBytes_nodup : allBytes.Nodup := by
  refine List.Nodup.map_on (fun m hm n hn e => ?_) List.nodup_range
  have := congrArg BitVec.toNat e
  simp only [List.mem_range, BitVec.toNat_ofNat] at *
  omega

/-- A list of distinct bytes leaves out the other ones of the 256. -/
theorem length_filter_not_contains {bs : List Byte} (h : bs.Nodup) :
    (allBytes.filter fun b => !bs.contains b).length + bs.length = 256 := by
  have hperm : (allBytes.filter bs.contains).Perm bs :=
    (List.perm_ext_iff_of_nodup (allBytes_nodup.filter _) h).mpr fun b => by simp [mem_allBytes]
  have hsplit := List.length_eq_length_filter_add (l := allBytes) bs.contains
  rw [hperm.length_eq] at hsplit
  have hall : allBytes.length = 256 := by simp [allBytes]
  omega

end Sys2Proof

namespace Sys2Proof.Machine

/-! ### The statements -/

/-- Settles O21: the opcode byte leads back to the instruction's operand decoder, which inverts the encoder's
operands. -/
theorem decodeOfEncodeIsTheInstruction : Obligations.DecodeOfEncodeIsTheInstruction := by
  intro p o i rest hd hwf
  cases hi : i.handler with
  | some h =>
    rw [encode_of_handler hi, List.cons_append, decode_ofHandler hd]
    exact decodeOperands_operands hi p rest
  | none =>
    cases i with
    | hlt => exact decode_hlt p o rest
    | unk op => exact decode_unk (wellFormed_unk.mp hwf) p rest
    | _ => cases hi

/-- Settles O22: under `fault` the bytes read are the encoding itself. -/
theorem encodeOfDecodeIsTheBytesRead : Obligations.EncodeOfDecodeIsTheBytesRead := by
  intro o bs rest i e
  obtain ⟨hwf, read, rfl, -, hread⟩ := wellFormed_and_readsAs_of_decode e
  exact ⟨hwf, by rw [hread rfl]⟩

/-- Settles O24, by counting the bytes outside a list of thirteen distinct ones. -/
theorem unknownBytesAre243OneByteInstructions : Obligations.UnknownBytesAre243OneByteInstructions := by
  intro p o hd
  refine ⟨?_, fun op rest hop => decode_unk hop p rest⟩
  have hcount := length_filter_not_contains hd
  have hbytes : o.bytes.length = 13 := rfl
  rw [allBytes, List.filter_map, List.length_map] at hcount
  exact Nat.add_right_cancel (hbytes ▸ hcount)

/-- Settles O25: the decoder reads as many bytes as the encoder writes. -/
theorem decodeConsumesTheFormatLength : Obligations.DecodeConsumesTheFormatLength := by
  intro p o bs rest i e
  obtain ⟨-, read, rfl, hread, -⟩ := wellFormed_and_readsAs_of_decode e
  obtain ⟨hlen, hmem⟩ := encodedLength i o
  have hread : read.length = instrLength i := hread.trans hlen
  exact ⟨by rw [← hread, List.drop_left], by simp [← hread], hmem⟩

/-- Settles O26, by what a rejection says of the operand bytes. -/
theorem decodeRejectsOnlyMissingBytesOrRegisters :
    Obligations.DecodeRejectsOnlyMissingBytesOrRegisters := by
  intro p o bs
  have hmissing (h : decode p o bs = .error .missingByte) : bs.length < 3 := by
    have := explains_of_decode h
    simp only [Reject.Explains, List.length_drop] at this
    omega
  refine ⟨hmissing, fun b h => explains_of_decode h, fun hp hlen => ?_⟩
  cases h : decode p o bs with
  | ok r => exact ⟨r.1, r.2, rfl⟩
  | error e =>
    cases e with
    | missingByte => exact absurd (hmissing h) (by omega)
    | registerRange b =>
      obtain ⟨hf, -⟩ := explains_of_decode h
      simp [hp] at hf

end Sys2Proof.Machine
end

section
/-!
PROOFS. The execution loop (spec/40_execution_loop.md): a step runs the instruction it fetches (rule R110),
HLT halts (rule R111), and an unknown byte is skipped or raises (rule R112). The model's one check of the
sequential `pc` is matched once with the rules' list of checks (`checked_nextPc`).
-/
namespace Sys2Proof.Machine

open Sys2Proof.Rules

/-! ### The checks of rule R192 -/

@[simp] theorem after_nil (s t : State) : after s [] t = .next t := rfl

@[simp] theorem after_cons_none (s t : State) (cs : List Check) :
    after s (none :: cs) t = after s cs t := rfl

@[simp] theorem after_cons_some (s t : State) (e : Trap) (cs : List Check) :
    after s (some e :: cs) t = .next (raise s e) := rfl

theorem pcCheck_of_fits {s : State} {n : Nat} (h : PcFits s n) : pcCheck s n = none := by
  refine if_neg ?_
  rintro ⟨hp, hlt⟩
  rcases h with h | h
  · simp [h] at hp
  · omega

/-- Checking the next `pc` is the rules' PcRange check, where the address is at most one past the top of
memory: there the fault's info is 256 (rule R191). -/
theorem checked_nextPc {s : State} {n : Nat} (h : s.pc.toNat + n ≤ 256) (f : Byte → State) :
    checked s (nextPc s n) (fun npc => .next (f npc)) =
      after s [pcCheck s n] (f (s.pc + BitVec.ofNat 8 n)) := by
  rcases nextPc_cases s n with ⟨hn, hfit⟩ | ⟨hn, hp, hlt⟩
  · rw [hn, checked_ok, pcCheck_of_fits hfit, after_cons_none, after_nil]
  · have hcheck : pcCheck s n = some ⟨.pcRange, 256⟩ := if_pos ⟨hp, hlt⟩
    have hinfo : (s.pc.toNat : Int) + n = 256 := by omega
    rw [hn, checked_error, hcheck, after_cons_some, hinfo]

/-! ### HLT and the unknown byte -/

theorem exec_hlt (s : State) : exec .hlt s = .next { s with run := .halted } := rfl

theorem exec_unk_strict {s : State} (op : Byte) (h : s.cfg.strictOpcode = true) :
    exec (.unk op) s = .next { s with run := .faulted ⟨.illegalOpcode, op.toNat⟩ } := if_pos h

/-- In the default mode the only check of an unknown byte is that of `pc + 1` (rule R112). -/
theorem exec_unk_default {s : State} (op : Byte) (h : s.cfg.strictOpcode = false) :
    exec (.unk op) s = after s [pcCheck s 1] { s with pc := s.pc + 1#8 } := by
  have hexec : exec (.unk op) s = checked s (nextPc s 1) fun npc => .next (s.setPc npc) :=
    if_neg (by simp [h])
  rw [hexec, checked_nextPc s.pc.isLt s.setPc, State.setPc_eq]

/-- An unknown byte at `pc` is fetched without a fault: it has no operand bytes (rule R88). -/
theorem fetchInstr_of_unknown {s : State} (h : cell s 0 ∉ s.cfg.opcodes.bytes) :
    fetchInstr s = .ok (.unk (cell s 0)) := by
  obtain ⟨bs, hw, -⟩ := fetchWindow_eq_cons s
  exact fetchInstr_ok (by rw [hw, decode_unk h])

/-! ### One step of the loop -/

theorem step_of_fetchInstr {s : State} {i : Instr} (hr : s.run = .running)
    (h : fetchInstr s = .ok i) : step s = exec i s := by
  rw [step_running hr, h, checked_ok]

/-! ### The statements -/

/-- Settles O20: the byte is fetched as UNK, whose two modes are `exec_unk_strict` and
`exec_unk_default`. -/
theorem unknownOpcodeStep : Obligations.UnknownOpcodeStep := by
  intro s hr hop
  rw [← cell_zero] at hop ⊢
  rw [step_of_fetchInstr hr (fetchInstr_of_unknown hop)]
  split
  · next hstrict => exact exec_unk_strict _ hstrict
  · next hstrict => exact exec_unk_default _ (Bool.eq_false_iff.mpr hstrict)

/-- Settles O6: HLT has no check, and the one check of UNK passes where `pc + 1` exists or wraps. -/
theorem hltAndUnknownComplete : Obligations.HltAndUnknownComplete := by
  refine ⟨exec_hlt, fun s op hstrict hfit => ?_⟩
  rw [exec_unk_default op hstrict, pcCheck_of_fits hfit, after_cons_none, after_nil]

/-- Settles O19: HLT's byte is fetched as HLT, and no step exists from HALTED (rule R32). -/
theorem hltStep : Obligations.HltStep := by
  intro s hr hop
  rw [← cell_zero] at hop
  refine ⟨?_, (noStepFromHaltedOrFaulted _).1 rfl⟩
  rw [step_of_fetchInstr hr (fetchInstr_of_hlt hop), exec_hlt]

/-- Settles O27: decoding the window is the fetch, and the step runs what was fetched. -/
theorem stepRunsTheDecodedInstruction : Obligations.StepRunsTheDecodedInstruction := by
  intro s i rest hr hd
  exact step_of_fetchInstr hr (fetchInstr_ok hd)

end Sys2Proof.Machine
end

section
/-!
PROOFS. Data movement (spec/41_data_movement.md): LDI and PRN. First, for every instruction of the dispatch
table, what the fetch does about the operand bytes: the checks of rule R192 that come before the instruction's
own, matched once with the model's decoder for the formats R and RI (`step_of_decodeR`, `step_of_decodeRI`).
-/
namespace Sys2Proof

theorem decodeRI_short (p : RangePolicy) (mk : Reg → Byte → Instr) {bs : List Byte} (h : bs.length < 2) :
    decodeRI p mk bs = .error .missingByte := by
  match bs, h with
  | [], _ => rfl
  | [_], _ => rfl

theorem decodeR_short (p : RangePolicy) (mk : Reg → Instr) {bs : List Byte} (h : bs.length < 1) :
    decodeR p mk bs = .error .missingByte := by
  match bs, h with
  | [], _ => rfl

end Sys2Proof

namespace Sys2Proof.Machine

open Sys2Proof.Rules

variable {s t : State} {h : Handler} {bs : List Byte} {cs : List Check}

/-! ### The checks of the operand bytes -/

theorem pcFits_of_le {m n : Nat} (hmn : m ≤ n) (hfit : PcFits s n) : PcFits s m :=
  hfit.imp_right (by omega)

/-- The operand bytes exist or wrap, or the check names the fault (rule R191). -/
theorem operandCheck_cases (s : State) (n : Nat) :
    (operandCheck s n = none ∧ PcFits s n) ∨
    (operandCheck s n = some ⟨.operandFetchRange, 256⟩ ∧ s.cfg.rangePolicy = .fault ∧
      255 < s.pc.toNat + n) := by
  by_cases hc : s.cfg.rangePolicy = .fault ∧ 255 < s.pc.toNat + n
  · exact .inr ⟨if_pos hc, hc⟩
  · refine .inl ⟨if_neg hc, ?_⟩
    cases hp : s.cfg.rangePolicy with
    | wrap => exact .inl hp
    | fault => exact .inr (Nat.not_lt.mp fun hlt => hc ⟨hp, hlt⟩)

/-- The register check raises what the decoder's rejection raises, and passes where the decoder selects the
register the byte names (rules R17, R191). -/
theorem registerCheck_cases (s : State) (b : Byte) :
    (registerCheck s b = none ∧ selectReg s.cfg.rangePolicy b = .ok (regNamed b)) ∨
    (registerCheck s b = some (rejectTrap s (.registerRange b)) ∧
      selectReg s.cfg.rangePolicy b = .error (.registerRange b)) := by
  rcases selectReg_cases s.cfg.rangePolicy b with ⟨e, hin⟩ | ⟨e, hp, hb⟩
  · refine .inl ⟨if_neg ?_, e⟩
    rintro ⟨hp, hlt⟩
    have hle : b.toNat < 8 := hin.resolve_left (by simp [hp])
    omega
  · exact .inr ⟨if_pos ⟨hp, hb⟩, e⟩

/-! ### The window of an instruction with operands -/

/-- Where one operand byte exists or wraps, the window holds it. -/
theorem fetchWindow_of_pcFits_one (hfit : PcFits s 1) :
    ∃ rest, fetchWindow s = cell s 0 :: cell s 1 :: rest := by
  rcases fetchWindow_cases s with ⟨-, hw⟩ | ⟨-, -, hw⟩ | ⟨hp, hpc, -⟩
  · exact ⟨_, hw⟩
  · exact ⟨_, hw⟩
  · have hle : s.pc.toNat + 1 ≤ 255 := hfit.resolve_left (by simp [hp])
    omega

/-- A window that memory cuts short ends at address 256, the first that does not exist (rule R191). -/
theorem fetchWindow_short {n : Nat} (hn : n ≤ 2) (hp : s.cfg.rangePolicy = .fault)
    (hlt : 255 < s.pc.toNat + n) :
    ∃ bs, fetchWindow s = cell s 0 :: bs ∧ bs.length < n ∧
      rejectTrap s .missingByte = ⟨.operandFetchRange, 256⟩ := by
  rcases fetchWindow_cases s with ⟨hin, -⟩ | ⟨-, hpc, hw⟩ | ⟨-, hpc, hw⟩
  · have hle : s.pc.toNat + 2 ≤ 255 := hin.resolve_left (by simp [hp])
    omega
  · refine ⟨_, hw, ?_, by simp [rejectTrap, hw, hpc]⟩
    rw [List.length_singleton]
    omega
  · refine ⟨_, hw, ?_, by simp [rejectTrap, hw, hpc]⟩
    rw [List.length_nil]
    omega

/-! ### One step at an instruction of the dispatch table -/

/-- At a handler's opcode byte the decoder reads that handler's operands (rules R110, R114). -/
theorem decode_of_fetches (hf : Fetches s (s.cfg.opcodes.ofHandler h))
    (hw : fetchWindow s = cell s 0 :: bs) :
    decode s.cfg.rangePolicy s.cfg.opcodes (fetchWindow s) =
      decodeOperands s.cfg.rangePolicy h bs := by
  obtain ⟨-, hd, hop⟩ := hf
  rw [hw, cell_zero, hop, decode_ofHandler hd]

theorem step_of_decodeOperands_ok {i : Instr} {rest : List Byte}
    (hf : Fetches s (s.cfg.opcodes.ofHandler h)) (hw : fetchWindow s = cell s 0 :: bs)
    (hi : decodeOperands s.cfg.rangePolicy h bs = .ok (i, rest)) : step s = exec i s :=
  step_of_fetchInstr hf.1 (fetchInstr_ok ((decode_of_fetches hf hw).trans hi))

theorem step_of_decodeOperands_error {e : Reject} (hf : Fetches s (s.cfg.opcodes.ofHandler h))
    (hw : fetchWindow s = cell s 0 :: bs)
    (he : decodeOperands s.cfg.rangePolicy h bs = .error e) :
    step s = .next (raise s (rejectTrap s e)) :=
  step_of_decode_error hf.1 ((decode_of_fetches hf hw).trans he)

/-- The operand fetch is the first check of an instruction that has `n` operand bytes (rules R85, R192). -/
theorem step_eq_after_operandCheck {n : Nat} (hf : Fetches s (s.cfg.opcodes.ofHandler h)) (hn : n ≤ 2)
    (hshort : ∀ bs : List Byte, bs.length < n →
      decodeOperands s.cfg.rangePolicy h bs = .error .missingByte)
    (hstep : PcFits s n → step s = after s cs t) : step s = after s (operandCheck s n :: cs) t := by
  rcases operandCheck_cases s n with ⟨hc, hfit⟩ | ⟨hc, hp, hlt⟩
  · rw [hc, after_cons_none, hstep hfit]
  · obtain ⟨bs, hw, hlen, htrap⟩ := fetchWindow_short hn hp hlt
    rw [hc, after_cons_some, step_of_decodeOperands_error hf hw (hshort bs hlen), htrap]

/-- A register byte is checked next, where the decoder rejects what selection rejects (rules R17, R192). -/
theorem step_eq_after_registerCheck {b : Byte} (hf : Fetches s (s.cfg.opcodes.ofHandler h))
    (hw : fetchWindow s = cell s 0 :: bs)
    (hreject : selectReg s.cfg.rangePolicy b = .error (.registerRange b) →
      decodeOperands s.cfg.rangePolicy h bs = .error (.registerRange b))
    (hstep : selectReg s.cfg.rangePolicy b = .ok (regNamed b) → step s = after s cs t) :
    step s = after s (registerCheck s b :: cs) t := by
  rcases registerCheck_cases s b with ⟨hc, hsel⟩ | ⟨hc, hsel⟩
  · rw [hc, after_cons_none, hstep hsel]
  · rw [hc, after_cons_some, step_of_decodeOperands_error hf hw (hreject hsel)]

/-- One step at an instruction of format R: the operand fetch, the register byte, then the instruction. -/
theorem step_of_decodeR {mk : Reg → Instr} (hf : Fetches s (s.cfg.opcodes.ofHandler h))
    (hdec : ∀ p bs, decodeOperands p h bs = decodeR p mk bs)
    (hexec : PcFits s 1 → exec (mk (regNamed (cell s 1))) s = after s cs t) :
    step s = after s (operandCheck s 1 :: registerCheck s (cell s 1) :: cs) t := by
  refine step_eq_after_operandCheck hf (by omega)
    (fun bs hbs => (hdec _ bs).trans (decodeR_short _ mk hbs)) fun hfit => ?_
  obtain ⟨rest, hw⟩ := fetchWindow_of_pcFits_one hfit
  refine step_eq_after_registerCheck hf hw (fun hsel => by rw [hdec, decodeR, hsel]) fun hsel => ?_
  have hi : decodeOperands s.cfg.rangePolicy h (cell s 1 :: rest) =
      .ok (mk (regNamed (cell s 1)), rest) := by rw [hdec, decodeR, hsel]
  rw [step_of_decodeOperands_ok hf hw hi, hexec hfit]

/-- One step at an instruction of format RI: the operand fetch, the register byte, then the instruction; the
immediate byte has no check (rule R84). -/
theorem step_of_decodeRI {mk : Reg → Byte → Instr} (hf : Fetches s (s.cfg.opcodes.ofHandler h))
    (hdec : ∀ p bs, decodeOperands p h bs = decodeRI p mk bs)
    (hexec : PcFits s 2 → exec (mk (regNamed (cell s 1)) (cell s 2)) s = after s cs t) :
    step s = after s (operandCheck s 2 :: registerCheck s (cell s 1) :: cs) t := by
  refine step_eq_after_operandCheck hf (by omega)
    (fun bs hbs => (hdec _ bs).trans (decodeRI_short _ mk hbs)) fun hfit => ?_
  have hw : fetchWindow s = [cell s 0, cell s 1, cell s 2] := fetchWindow_three hfit
  refine step_eq_after_registerCheck hf hw (fun hsel => by rw [hdec, decodeRI, hsel]) fun hsel => ?_
  have hi : decodeOperands s.cfg.rangePolicy h [cell s 1, cell s 2] =
      .ok (mk (regNamed (cell s 1)) (cell s 2), []) := by rw [hdec, decodeRI, hsel]
  rw [step_of_decodeOperands_ok hf hw hi, hexec hfit]

/-! ### LDI and PRN -/

/-- Where the instruction's last byte exists or wraps, checking the next `pc` is the rules' PcRange check. -/
theorem checked_nextPc_succ {n : Nat} (hfit : PcFits s n) (f : Byte → State) :
    checked s (nextPc s (n + 1)) (fun npc => .next (f npc)) =
      after s [pcCheck s (n + 1)] (f (s.pc + BitVec.ofNat 8 (n + 1))) := by
  rcases hfit with hp | hle
  · rw [nextPc_ok (.inl hp), checked_ok, pcCheck_of_fits (.inl hp), after_cons_none, after_nil]
  · exact checked_nextPc (by omega) f

/-- LDI's own check is that of `pc + 3` (rule R130). -/
theorem exec_ldi (a : Reg) (imm : Byte) (hfit : PcFits s 2) :
    exec (.ldi a imm) s =
      after s [pcCheck s 3] { s with x := s.x.set a imm, pc := s.pc + 3#8 } := by
  rw [exec_eq_checked, Instr.pcAfter, checked_nextPc_succ hfit, Instr.commit, State.setPc_eq,
    State.setReg_eq]

/-- PRN's own check is that of `pc + 2` (rule R131). -/
theorem exec_prn (a : Reg) (hfit : PcFits s 1) :
    exec (.prn a) s =
      after s [pcCheck s 2] { s with out := s.out ++ [s.x[a]], pc := s.pc + 2#8 } := by
  rw [exec_eq_checked, Instr.pcAfter, checked_nextPc_succ hfit, Instr.commit, State.setPc_eq]
  rfl

end Sys2Proof.Machine

namespace Sys2Proof.Machine

open Sys2Proof.Rules

/-! ### The statements -/

/-- Settles O7: the checks of format RI, then LDI's own (`exec_ldi`). -/
theorem ldiStep : Obligations.LdiStep := by
  intro s hf
  exact step_of_decodeRI (h := .ldi) hf (fun _ _ => rfl) (exec_ldi _ _)

/-- Settles O8: the checks of format R, then PRN's own (`exec_prn`). -/
theorem prnStep : Obligations.PrnStep := by
  intro s hf
  exact step_of_decodeR (h := .prn) hf (fun _ _ => rfl) (exec_prn _)

/-- Settles O1: where the next `pc` exists or wraps, so does the instruction's last byte, and the one check
passes. -/
theorem dataMovementCompletes : Obligations.DataMovementCompletes := by
  refine ⟨fun s a imm hfit => ?_, fun s a hfit => ?_⟩
  · rw [exec_ldi a imm (pcFits_of_le (by omega) hfit), pcCheck_of_fits hfit, after_cons_none, after_nil]
  · rw [exec_prn a (pcFits_of_le (by omega) hfit), pcCheck_of_fits hfit, after_cons_none, after_nil]

end Sys2Proof.Machine
end

section
/-!
PROOFS. The ALU (spec/42_alu.md): ADD, MUL and CMP (rules R141 to R143), under either value of OVERFLOW, and
the unsupported operation (rule R144). The checks of format RR are matched once with the model's decoder
(`step_of_decodeRR`), and what the ALU leaves of a result once with the rules' `kept` (`aluFit_eq_kept`).
-/
namespace Sys2Proof

theorem decodeRR_short (p : RangePolicy) (mk : Reg → Reg → Instr) {bs : List Byte} (h : bs.length < 2) :
    decodeRR p mk bs = .error .missingByte := by
  match bs, h with
  | [], _ => rfl
  | [_], _ => rfl

end Sys2Proof

namespace Sys2Proof.Machine

open Sys2Proof.Rules

variable {s t : State} {h : Handler} {cs : List Check}

/-! ### One step at an instruction of format RR -/

/-- One step at an instruction of format RR: the operand fetch, the two register bytes in order, then the
instruction (rules R85, R192). -/
theorem step_of_decodeRR {mk : Reg → Reg → Instr} (hf : Fetches s (s.cfg.opcodes.ofHandler h))
    (hdec : ∀ p bs, decodeOperands p h bs = decodeRR p mk bs)
    (hexec : PcFits s 2 → exec (mk (regNamed (cell s 1)) (regNamed (cell s 2))) s = after s cs t) :
    step s = after s
      (operandCheck s 2 :: registerCheck s (cell s 1) :: registerCheck s (cell s 2) :: cs) t := by
  refine step_eq_after_operandCheck hf (by omega)
    (fun bs hbs => (hdec _ bs).trans (decodeRR_short _ mk hbs)) fun hfit => ?_
  have hw : fetchWindow s = [cell s 0, cell s 1, cell s 2] := fetchWindow_three hfit
  refine step_eq_after_registerCheck hf hw (fun hsel => by rw [hdec, decodeRR, hsel]) fun hsel1 => ?_
  refine step_eq_after_registerCheck hf hw (fun hsel => by rw [hdec, decodeRR, hsel1, hsel])
    fun hsel2 => ?_
  have hi : decodeOperands s.cfg.rangePolicy h [cell s 1, cell s 2] =
      .ok (mk (regNamed (cell s 1)) (regNamed (cell s 2)), []) := by rw [hdec, decodeRR, hsel1, hsel2]
  rw [step_of_decodeOperands_ok hf hw hi, hexec hfit]

/-! ### What OVERFLOW leaves of a result -/

theorem kept_of_wraparound (ho : s.cfg.overflow = .wraparound) (n : Nat) :
    kept s n = BitVec.ofNat 8 n := if_pos ho

theorem kept_of_saturation (ho : s.cfg.overflow = .saturation) (n : Nat) :
    kept s n = BitVec.ofNat 8 (min n 255) := if_neg (by simp [ho])

/-- The ALU leaves of a result what the rules say, under either value of OVERFLOW. -/
theorem aluFit_eq_kept (s : State) (n : Nat) : aluFit s.cfg n = kept s n := by
  cases ho : s.cfg.overflow with
  | wraparound => rw [aluFit_wraparound ho, kept_of_wraparound ho]
  | saturation => rw [aluFit_saturation ho, kept_of_saturation ho]

/-! ### The effects of ADD, MUL and CMP -/

/-- The one check of a 3-byte instruction that only advances `pc` is that of `pc + 3` (rule R192). -/
theorem exec_of_pcAfter_three {i : Instr} (hpc : i.pcAfter s = nextPc s 3) (hfit : PcFits s 2) :
    exec i s = after s [pcCheck s 3] { i.commit s with pc := s.pc + 3#8 } := by
  rw [exec_eq_checked, hpc, checked_nextPc_succ hfit, State.setPc_eq]

theorem commit_add (a b : Reg) (s : State) :
    (Instr.add a b).commit s =
      { s with x := s.x.set a (kept s (s.x[a].toNat + s.x[b].toNat)) } := by
  rw [Instr.commit, State.setReg_eq, aluSum, aluFit_eq_kept]
  rfl

theorem commit_mul (a b : Reg) (s : State) :
    (Instr.mul a b).commit s =
      { s with x := s.x.set a (kept s (s.x[a].toNat * s.x[b].toNat)) } := by
  rw [Instr.commit, State.setReg_eq, aluProduct, aluFit_eq_kept]
  rfl

theorem commit_cmp (a b : Reg) (s : State) :
    (Instr.cmp a b).commit s = { s with fl := compared s.x[a].toNat s.x[b].toNat } := rfl

theorem exec_add (a b : Reg) (hfit : PcFits s 2) :
    exec (.add a b) s = after s [pcCheck s 3] { s with
      x := s.x.set a (kept s (s.x[a].toNat + s.x[b].toNat)), pc := s.pc + 3#8 } := by
  rw [exec_of_pcAfter_three rfl hfit, commit_add]

theorem exec_mul (a b : Reg) (hfit : PcFits s 2) :
    exec (.mul a b) s = after s [pcCheck s 3] { s with
      x := s.x.set a (kept s (s.x[a].toNat * s.x[b].toNat)), pc := s.pc + 3#8 } := by
  rw [exec_of_pcAfter_three rfl hfit, commit_mul]

theorem exec_cmp (a b : Reg) (hfit : PcFits s 2) :
    exec (.cmp a b) s = after s [pcCheck s 3] { s with
      fl := compared s.x[a].toNat s.x[b].toNat, pc := s.pc + 3#8 } := by
  rw [exec_of_pcAfter_three rfl hfit, commit_cmp]

/-! ### One step at ADD and at MUL, under either value of OVERFLOW -/

theorem step_add (hf : Fetches s s.cfg.opcodes.add) :
    step s = after s
      [operandCheck s 2, registerCheck s (cell s 1), registerCheck s (cell s 2), pcCheck s 3]
      { s with
        x := s.x.set (regNamed (cell s 1))
          (kept s (s.x[regNamed (cell s 1)].toNat + s.x[regNamed (cell s 2)].toNat))
        pc := s.pc + 3#8 } :=
  step_of_decodeRR (h := .add) hf (fun _ _ => rfl) (exec_add _ _)

theorem step_mul (hf : Fetches s s.cfg.opcodes.mul) :
    step s = after s
      [operandCheck s 2, registerCheck s (cell s 1), registerCheck s (cell s 2), pcCheck s 3]
      { s with
        x := s.x.set (regNamed (cell s 1))
          (kept s (s.x[regNamed (cell s 1)].toNat * s.x[regNamed (cell s 2)].toNat))
        pc := s.pc + 3#8 } :=
  step_of_decodeRR (h := .mul) hf (fun _ _ => rfl) (exec_mul _ _)

/-! ### The causes of the faults a step can take -/

/-- A failed address check raises its own cause (rule R16). -/
theorem addrOf_error_cause {p : RangePolicy} {v : Int} {c : Cause} {e : Trap}
    (he : addrOf p v c = .error e) : e.cause = c := by
  rcases addrOf_cases p v c with ⟨h', -⟩ | ⟨h', -⟩
  · cases h'.symm.trans he
  · cases h'.symm.trans he
    rfl

theorem eq_error_of_bind {α β : Type} {r : Except Trap α} {f : α → Except Trap β} {e : Trap}
    (he : r.bind f = .error e) : r = .error e ∨ ∃ v, f v = .error e := by
  cases r with
  | ok v => exact .inr ⟨v, he⟩
  | error e' => exact .inl (congrArg _ (Except.error.inj he))

theorem eq_error_of_map {α β : Type} {r : Except Trap α} {f : α → β} {e : Trap}
    (he : r.map f = .error e) : r = .error e := by
  cases r with
  | ok v => cases he
  | error e' => exact congrArg _ (Except.error.inj he)

/-- The instructions' own checks are of the stack address, the next `pc` and, for UNK in strict mode, the
opcode (rule R192): they raise no other cause. -/
theorem pcAfter_error_cause {i : Instr} {e : Trap} (he : i.pcAfter s = .error e) :
    e.cause = .stackRange ∨ e.cause = .pcRange ∨ e.cause = .illegalOpcode := by
  cases i with
  | push a | pop a =>
    rcases eq_error_of_bind he with hstack | ⟨-, hpc⟩
    · exact .inl (addrOf_error_cause hstack)
    · exact .inr (.inl (addrOf_error_cause hpc))
  | call a =>
    rcases eq_error_of_bind he with hstack | ⟨-, hpc⟩
    · exact .inl (addrOf_error_cause hstack)
    · exact .inr (.inl (addrOf_error_cause (eq_error_of_map hpc)))
  | ret => exact .inl (addrOf_error_cause (eq_error_of_map he))
  | jmp a | hlt => cases he
  | jeq a | jne a =>
    rw [Instr.pcAfter] at he
    split at he
    · cases he
    · exact .inr (.inl (addrOf_error_cause he))
  | unk op =>
    rw [Instr.pcAfter] at he
    split at he
    · cases he
      exact .inr (.inr rfl)
    · exact .inr (.inl (addrOf_error_cause he))
  | _ => exact .inr (.inl (addrOf_error_cause he))

/-- The commits leave the run state, but for HLT's (rule R111). -/
theorem commit_run (i : Instr) (s : State) :
    (i.commit s).run = s.run ∨ (i.commit s).run = .halted := by
  cases i with
  | hlt => exact .inr rfl
  | _ => exact .inl rfl

/-- A fetch that faults takes the fault of the decoder's rejection (rule R191). -/
theorem decode_error_of_fetchInstr {e : Trap} (hf : fetchInstr s = .error e) :
    ∃ r, decode s.cfg.rangePolicy s.cfg.opcodes (fetchWindow s) = .error r ∧ e = rejectTrap s r := by
  cases hd : decode s.cfg.rangePolicy s.cfg.opcodes (fetchWindow s) with
  | ok d => cases (fetchInstr_ok hd).symm.trans hf
  | error r =>
    cases (fetchInstr_error hd).symm.trans hf
    exact ⟨r, rfl, rfl⟩

/-- A step that ends FAULTED has taken the fault of a rejected fetch or of one of the checks of the
instruction it fetched (rules R190, R192). -/
theorem step_fault_cases {e : Trap} (hstep : step s = .next t) (hrun : t.run = .faulted e) :
    t = raise s e ∧
      ((∃ r, decode s.cfg.rangePolicy s.cfg.opcodes (fetchWindow s) = .error r ∧ e = rejectTrap s r) ∨
        (∃ i, fetchInstr s = .ok i ∧ i.pcAfter s = .error e)) := by
  obtain ⟨hr, ⟨i, hf, he⟩ | ⟨e', hf, rfl⟩⟩ := step_cases hstep
  · rcases exec_cases he with ⟨npc, -, rfl⟩ | ⟨e', he', rfl⟩
    · rw [State.setPc_run] at hrun
      rcases commit_run i s with hc | hc
      · cases hr.symm.trans (hc.symm.trans hrun)
      · cases hc.symm.trans hrun
    · cases hrun
      exact ⟨rfl, .inr ⟨i, hf, he'⟩⟩
  · cases hrun
    exact ⟨rfl, .inl (decode_error_of_fetchInstr hf)⟩

end Sys2Proof.Machine

namespace Sys2Proof.Machine

open Sys2Proof.Rules

/-! ### The statements -/

/-- Settles O9: one step at an ADD, where `kept` is the remainder mod 256. -/
theorem addStep : Obligations.AddStep := by
  intro s hf ho
  rw [step_add hf, kept_of_wraparound ho]

/-- Settles O10: one step at a MUL, where `kept` is the remainder mod 256. -/
theorem mulStep : Obligations.MulStep := by
  intro s hf ho
  rw [step_mul hf, kept_of_wraparound ho]

/-- Settles O52: the same steps, where `kept` stops at 255. -/
theorem saturatingAluSteps : Obligations.SaturatingAluSteps := by
  refine fun s ho => ⟨fun hf => ?_, fun hf => ?_⟩
  · rw [step_add hf, kept_of_saturation ho]
  · rw [step_mul hf, kept_of_saturation ho]

/-- Settles O11: the checks of format RR, then CMP's own (`exec_cmp`). -/
theorem cmpStep : Obligations.CmpStep := by
  intro s hf
  exact step_of_decodeRR (h := .cmp) hf (fun _ _ => rfl) (exec_cmp _ _)

/-- Settles O32: a step's fault is a rejection of the fetched bytes or comes from an instruction's own
checks, and neither has the cause AluUnsupported. -/
theorem unsupportedAluOperationNeverArises : Obligations.UnsupportedAluOperationNeverArises := by
  refine ⟨fun _ _ _ _ => rfl, fun s t n hstep hrun => ?_⟩
  obtain ⟨-, ⟨r, -, he⟩ | ⟨i, -, he⟩⟩ := step_fault_cases hstep hrun
  · cases r <;> cases he
  · rcases pcAfter_error_cause he with hc | hc | hc <;> cases hc

/-- Settles O2: where the next `pc` exists or wraps, so does the instruction's last byte, and the one check
passes. -/
theorem aluInstructionsComplete : Obligations.AluInstructionsComplete := by
  intro s a b hfit
  have hlast : PcFits s 2 := pcFits_of_le (by omega) hfit
  refine ⟨?_, ?_, ?_⟩
  · rw [exec_add a b hlast, pcCheck_of_fits hfit, after_cons_none, after_nil]
  · rw [exec_mul a b hlast, pcCheck_of_fits hfit, after_cons_none, after_nil]
  · rw [exec_cmp a b hlast, pcCheck_of_fits hfit, after_cons_none, after_nil]

end Sys2Proof.Machine
end

section
/-!
PROOFS. The stack (spec/43_stack.md): PUSH and POP (rules R161, R162) and their balance (rule R163). The two
stack addresses are matched once with the rules' checks (`checked_pushAddr`, `checked_popAddr`). Balance is by
induction on the list of registers: its first PUSH and its last POP enclose the pairs of the rest, which leave
the byte the PUSH stored alone.
-/
namespace Sys2Proof.Machine

open Sys2Proof.Rules

variable {s t : State} {cs : List Check}

/-! ### The checks of the stack address -/

theorem pushCheck_of_fits (h : PushFits s) : pushCheck s = none := by
  refine if_neg ?_
  rintro ⟨hp, hz⟩
  rcases h with h | h
  · simp [h] at hp
  · omega

theorem popCheck_of_fits (h : PopFits s) : popCheck s = none := by
  refine if_neg ?_
  rintro ⟨hp, hz⟩
  rcases h with h | h
  · simp [h] at hp
  · omega

/-- Checking the address of a push is the rules' StackRange check of `sp - 1` (rules R160, R191). -/
theorem checked_pushAddr {k : Byte → Result} (hk : k (s.sp - 1#8) = after s cs t) :
    checked s (pushAddr s) k = after s (pushCheck s :: cs) t := by
  rcases pushAddr_cases s with ⟨ha, hfit⟩ | ⟨ha, hp, hz⟩
  · rw [ha, checked_ok, pushCheck_of_fits hfit, after_cons_none, hk]
  · have hcheck : pushCheck s = some ⟨.stackRange, -1⟩ := if_pos ⟨hp, by simp [hz]⟩
    rw [ha, checked_error, hcheck, after_cons_some]

/-- Checking the stack pointer after a pop is the rules' StackRange check of `sp + 1` (rules R160, R191). -/
theorem checked_popAddr {k : Byte → Result} (hk : k (s.sp + 1#8) = after s cs t) :
    checked s (popAddr s) k = after s (popCheck s :: cs) t := by
  rcases popAddr_cases s with ⟨ha, hfit⟩ | ⟨ha, hp, hz⟩
  · rw [ha, checked_ok, popCheck_of_fits hfit, after_cons_none, hk]
  · have hcheck : popCheck s = some ⟨.stackRange, 256⟩ := if_pos ⟨hp, by simp [hz]⟩
    rw [ha, checked_error, hcheck, after_cons_some]

/-! ### PUSH and POP -/

/-- The state after a PUSH of register `a` that completes (rule R161). -/
def pushed (a : Reg) (s : State) : State :=
  { s with mem := s.mem.write (s.sp - 1#8).toNat s.x[a], sp := s.sp - 1#8, pc := s.pc + 2#8 }

/-- The state after a POP to register `a` that completes (rule R162). -/
def popped (a : Reg) (s : State) : State :=
  { s with x := s.x.set a (s.mem.read s.sp.toNat), sp := s.sp + 1#8, pc := s.pc + 2#8 }

@[simp] theorem pushed_sp (a : Reg) (s : State) : (pushed a s).sp = s.sp - 1#8 := rfl
@[simp] theorem pushed_pc (a : Reg) (s : State) : (pushed a s).pc = s.pc + 2#8 := rfl

theorem commitPush_setPc (a : Reg) (s : State) :
    (commitPush s (s.sp - 1#8) (s.getReg a)).setPc (s.pc + 2#8) = pushed a s := by
  rw [State.setPc_eq, commitPush, State.setSp_eq]
  rfl

theorem commitPop_setPc (a : Reg) (s : State) :
    ((s.setReg a (stackTop s)).setSp (s.sp + 1#8)).setPc (s.pc + 2#8) = popped a s := by
  rw [State.setPc_eq, State.setSp_eq, State.setReg_eq]
  rfl

/-- PUSH's own checks are those of `sp - 1` and then of `pc + 2` (rules R161, R192). -/
theorem exec_push (a : Reg) (hfit : PcFits s 1) :
    exec (.push a) s = after s [pushCheck s, pcCheck s 2] (pushed a s) := by
  rw [← commitPush_setPc]
  exact checked_pushAddr (checked_nextPc_succ hfit _)

/-- POP's own checks are those of `sp + 1` and then of `pc + 2` (rules R162, R192). -/
theorem exec_pop (a : Reg) (hfit : PcFits s 1) :
    exec (.pop a) s = after s [popCheck s, pcCheck s 2] (popped a s) := by
  rw [← commitPop_setPc]
  exact checked_popAddr (checked_nextPc_succ hfit _)

theorem exec_push_of_fits (a : Reg) (hstack : PushFits s) (hpc : PcFits s 2) :
    exec (.push a) s = .next (pushed a s) := by
  rw [exec_push a (pcFits_of_le (by omega) hpc), pushCheck_of_fits hstack, pcCheck_of_fits hpc,
    after_cons_none, after_cons_none, after_nil]

theorem exec_pop_of_fits (a : Reg) (hstack : PopFits s) (hpc : PcFits s 2) :
    exec (.pop a) s = .next (popped a s) := by
  rw [exec_pop a (pcFits_of_le (by omega) hpc), popCheck_of_fits hstack, pcCheck_of_fits hpc,
    after_cons_none, after_cons_none, after_nil]

/-! ### Running a list of instructions -/

theorem execAll_cons {i : Instr} {is : List Instr} (h : exec i s = .next t) :
    execAll (i :: is) s = execAll is t := by
  rw [execAll, h]

theorem execAll_append_singleton {is : List Instr} {i : Instr} {u : State}
    (his : execAll is s = some t) (hi : exec i t = .next u) : execAll (is ++ [i]) s = some u := by
  induction is generalizing s with
  | nil =>
    cases his
    exact execAll_cons hi
  | cons j js ih =>
    obtain ⟨v, hj⟩ := exec_next j s
    rw [execAll_cons hj] at his
    rw [List.cons_append, execAll_cons hj, ih his]

/-! ### Balance -/

/-- Pushing the registers in order and popping them in reverse order (rule R163). -/
def pushesThenPops (rs : List Reg) : List Instr := rs.map .push ++ rs.reverse.map .pop

/-- The pushes and pops of a list enclose those of its tail. -/
theorem pushesThenPops_cons (r : Reg) (rs : List Reg) :
    pushesThenPops (r :: rs) = .push r :: (pushesThenPops rs ++ [.pop r]) := by
  simp [pushesThenPops]

/-- The stack and the `pc` have room for `n` pushes and `n` pops, or wrap, no cell being pushed to twice. -/
def StackRoom (s : State) (n : Nat) : Prop :=
  (s.cfg.rangePolicy = .wrap ∧ n ≤ 256) ∨ (n ≤ s.sp.toNat ∧ s.pc.toNat + 4 * n ≤ 255)

/-- Cell `b` is none of the `n` cells below the stack's top that `n` pushes write. -/
def NotPushed (s : State) (n b : Nat) : Prop :=
  ∀ k, 1 ≤ k → k ≤ n → b ≠ (s.sp - BitVec.ofNat 8 k).toNat

/-- `t` is `s` with `pc` advanced by `n` pushes and pops, but for the cells the pushes write. -/
def Balanced (n : Nat) (s t : State) : Prop :=
  ∃ m, t = { s with mem := m, pc := s.pc + BitVec.ofNat 8 (4 * n) } ∧
    ∀ b, NotPushed s n b → m.read b = s.mem.read b

variable {n : Nat} {r : Reg}

theorem StackRoom.pushFits (h : StackRoom s (n + 1)) : PushFits s :=
  h.imp And.left fun ⟨hsp, _⟩ => by omega

theorem StackRoom.pcFits (h : StackRoom s (n + 1)) : PcFits s 2 :=
  h.imp And.left fun ⟨_, hpc⟩ => by omega

theorem StackRoom.after_push (h : StackRoom s (n + 1)) (r : Reg) : StackRoom (pushed r s) n := by
  rcases h with ⟨hp, hn⟩ | ⟨hsp, hpc⟩
  · exact .inl ⟨hp, by omega⟩
  · refine .inr ⟨?_, ?_⟩
    · rw [pushed_sp]
      bv_omega
    · rw [pushed_pc]
      bv_omega

/-- The pushes that follow the first leave its cell alone: there are at most 255 of them. -/
theorem StackRoom.top_notPushed (h : StackRoom s (n + 1)) (r : Reg) :
    NotPushed (pushed r s) n (s.sp - 1#8).toNat := by
  intro k hk hkn
  rw [pushed_sp]
  have hn : n ≤ 255 := by
    have hsp := s.sp.isLt
    rcases h with ⟨-, hn⟩ | ⟨hn, -⟩ <;> omega
  bv_omega

/-- The cells of `n + 1` pushes are the first one's and those of the other `n`. -/
theorem NotPushed.tail {b : Nat} (h : NotPushed s (n + 1) b) (r : Reg) :
    b ≠ (s.sp - 1#8).toNat ∧ NotPushed (pushed r s) n b := by
  refine ⟨h 1 le_rfl (by omega), fun k hk hkn => ?_⟩
  have hcell : s.sp - 1#8 - BitVec.ofNat 8 k = s.sp - BitVec.ofNat 8 (k + 1) := by bv_omega
  rw [pushed_sp, hcell]
  exact h (k + 1) (by omega) (by omega)

/-- After a PUSH and `n` balanced pairs there is room for the POP. -/
theorem Balanced.pop_fits (h : StackRoom s (n + 1)) (hb : Balanced n (pushed r s) t) :
    PopFits t ∧ PcFits t 2 := by
  obtain ⟨m, rfl, -⟩ := hb
  rcases h with ⟨hp, -⟩ | ⟨hsp, hpc⟩
  · exact ⟨.inl hp, .inl hp⟩
  · refine ⟨.inr ?_, .inr ?_⟩
    · rw [pushed_sp]
      bv_omega
    · rw [pushed_pc]
      bv_omega

/-- A PUSH, `n` balanced pairs and a POP to the same register are `n + 1` balanced pairs: the POP reads the
byte the PUSH stored. -/
theorem Balanced.pop (hm : s.mem.wf = true) (h : StackRoom s (n + 1))
    (hb : Balanced n (pushed r s) t) : Balanced (n + 1) s (popped r t) := by
  obtain ⟨m, rfl, hread⟩ := hb
  have htop : m.read (s.sp - 1#8).toNat = s.x[r] :=
    (hread _ (h.top_notPushed r)).trans (Memory.read_write_same hm _ _)
  have hsp : s.sp - 1#8 + 1#8 = s.sp := BitVec.sub_add_cancel _ _
  have hpc : s.pc + 2#8 + BitVec.ofNat 8 (4 * n) + 2#8 = s.pc + BitVec.ofNat 8 (4 * (n + 1)) := by
    bv_omega
  have hx : s.x.set r (m.read (s.sp - 1#8).toNat) = s.x :=
    (congrArg (s.x.set r ·) htop).trans (Vector.set_getElem_self r.isLt)
  refine ⟨m, by simp only [popped, pushed, hx, hsp, hpc], fun b hnot => ?_⟩
  obtain ⟨hne, hnot'⟩ := hnot.tail r
  exact (hread b hnot').trans (Memory.read_write_other _ _ hne)

/-- Where there is room, the pushes and pops of a list of registers complete and are balanced (rule R163). -/
theorem execAll_pushesThenPops (rs : List Reg) (hm : s.mem.wf = true) (h : StackRoom s rs.length) :
    ∃ t, execAll (pushesThenPops rs) s = some t ∧ Balanced rs.length s t := by
  induction rs generalizing s with
  | nil => exact ⟨s, rfl, s.mem, by simp, fun _ _ => rfl⟩
  | cons r rs ih =>
    have hpush := exec_push_of_fits r h.pushFits h.pcFits
    obtain ⟨t, hrun, hb⟩ := ih (s := pushed r s) (State.memWrite_wf hm _ _) (h.after_push r)
    obtain ⟨hstack, hpc⟩ := hb.pop_fits h
    refine ⟨popped r t, ?_, hb.pop hm h⟩
    rw [pushesThenPops_cons, execAll_cons hpush]
    exact execAll_append_singleton hrun (exec_pop_of_fits r hstack hpc)

end Sys2Proof.Machine

namespace Sys2Proof.Machine

open Sys2Proof.Rules

/-! ### The statements -/

/-- Settles O50: the list's pushes and pops complete, balanced (`execAll_pushesThenPops`). -/
theorem balancedPushesAndPopsRestore : Obligations.BalancedPushesAndPopsRestore := by
  intro rs s hm hroom
  obtain ⟨t, hrun, m, rfl, hread⟩ := execAll_pushesThenPops rs hm hroom
  exact ⟨m, hrun, hread⟩

/-- Settles O12: the checks of format R, then PUSH's own (`exec_push`). -/
theorem pushStep : Obligations.PushStep := by
  intro s hf
  exact step_of_decodeR (h := .push) hf (fun _ _ => rfl) (exec_push _)

/-- Settles O13: the checks of format R, then POP's own (`exec_pop`). -/
theorem popStep : Obligations.PopStep := by
  intro s hf
  exact step_of_decodeR (h := .pop) hf (fun _ _ => rfl) (exec_pop _)

/-- Settles O3: where the stack address and the next `pc` exist or wrap, both checks pass. -/
theorem stackInstructionsComplete : Obligations.StackInstructionsComplete :=
  ⟨fun _ a => exec_push_of_fits a, fun _ a => exec_pop_of_fits a⟩

end Sys2Proof.Machine
end

section
/-!
PROOFS. Control flow (spec/44_control_flow.md): JMP, JEQ and JNE (rules R170 to R172), CALL and RET (rules
R173, R174). What JEQ and JNE do is said once for their shared branch, which checks the next `pc` only where it
is not taken; the stack's checks are those of the section before.
-/
namespace Sys2Proof.Machine

open Sys2Proof.Rules

variable {s : State}

/-! ### JMP, JEQ and JNE -/

/-- JMP has no check of its own (rule R170). -/
theorem exec_jmp (a : Reg) (s : State) : exec (.jmp a) s = .next { s with pc := s.x[a] } := by
  rw [exec_eq_checked, Instr.pcAfter, checked_ok, State.setPc_eq]
  rfl

/-- The state after a conditional branch that completes (rules R171, R172). -/
def branched (taken : Bool) (a : Reg) (s : State) : State :=
  { s with pc := if taken then s.x[a] else s.pc + 2#8 }

theorem branch_taken (a : Reg) (s : State) : branch true a s = .next (branched true a s) := by
  rw [branch, if_pos rfl, State.setPc_eq]
  rfl

theorem branch_not_taken (a : Reg) (hfit : PcFits s 1) :
    branch false a s = after s [pcCheck s 2] (branched false a s) := by
  rw [branch, if_neg Bool.false_ne_true, checked_nextPc_succ hfit, State.setPc_eq]
  rfl

/-- A branch's own check is that of `pc + 2`, and only where it is not taken (rules R171, R172, R192). -/
theorem branch_eq_after (taken : Bool) (a : Reg) (hfit : PcFits s 1) :
    branch taken a s = after s (if taken then [] else [pcCheck s 2]) (branched taken a s) := by
  cases taken with
  | true => exact branch_taken a s
  | false => exact branch_not_taken a hfit

/-- A branch completes where it is taken or `pc + 2` exists or wraps. -/
theorem branch_of_taken_or_fits {taken : Bool} (a : Reg) (h : taken = true ∨ PcFits s 2) :
    branch taken a s = .next (branched taken a s) := by
  cases taken with
  | true => exact branch_taken a s
  | false =>
    have hfit : PcFits s 2 := h.resolve_left Bool.false_ne_true
    rw [branch_not_taken a (pcFits_of_le (by omega) hfit), pcCheck_of_fits hfit, after_cons_none,
      after_nil]

/-- JNE is taken where `G` or `L` is set, whatever `E` is (rule R172). -/
theorem jneTaken_iff (f : Flags) : jneTaken f = true ↔ f.g = true ∨ f.l = true := by
  rw [jneTaken, Bool.or_eq_true]

/-! ### CALL and RET -/

/-- The state after a CALL of register `a` that completes (rule R173). -/
def called (a : Reg) (s : State) : State :=
  { s with mem := s.mem.write (s.sp - 1#8).toNat (s.pc + 2#8), sp := s.sp - 1#8, pc := s.x[a] }

/-- The state after a RET that completes (rule R174). -/
def returned (s : State) : State := { s with sp := s.sp + 1#8, pc := s.mem.read s.sp.toNat }

@[simp] theorem called_sp (a : Reg) (s : State) : (called a s).sp = s.sp - 1#8 := rfl

/-- After a CALL the byte at `sp` is the address after the CALL. -/
theorem called_top (hm : s.mem.wf = true) (a : Reg) :
    (called a s).mem.read (called a s).sp.toNat = s.pc + 2#8 :=
  Memory.read_write_same hm _ _

theorem commitCall_setPc (a : Reg) (s : State) :
    (commitPush s (s.sp - 1#8) (s.pc + 2#8)).setPc (s.getReg a) = called a s := by
  rw [State.setPc_eq, commitPush, State.setSp_eq]
  rfl

theorem commitRet_setPc (s : State) : (s.setSp (s.sp + 1#8)).setPc (stackTop s) = returned s := by
  rw [State.setPc_eq, State.setSp_eq]
  rfl

/-- CALL's own checks are those of `sp - 1` and then of the return address `pc + 2` (rules R173, R192). -/
theorem exec_call (a : Reg) (hfit : PcFits s 1) :
    exec (.call a) s = after s [pushCheck s, pcCheck s 2] (called a s) := by
  rw [← commitCall_setPc]
  exact checked_pushAddr
    (checked_nextPc_succ hfit fun ret => (commitPush s (s.sp - 1#8) ret).setPc (s.getReg a))

/-- RET's only check is that of `sp + 1` (rule R174). -/
theorem exec_ret (s : State) : exec .ret s = after s [popCheck s] (returned s) := by
  rw [← commitRet_setPc]
  exact checked_popAddr (after_nil _ _).symm

theorem exec_call_of_fits (a : Reg) (hstack : PushFits s) (hpc : PcFits s 2) :
    exec (.call a) s = .next (called a s) := by
  rw [exec_call a (pcFits_of_le (by omega) hpc), pushCheck_of_fits hstack, pcCheck_of_fits hpc,
    after_cons_none, after_cons_none, after_nil]

theorem exec_ret_of_fits (hstack : PopFits s) : exec .ret s = .next (returned s) := by
  rw [exec_ret, popCheck_of_fits hstack, after_cons_none, after_nil]

/-- One step at a RET's byte runs RET: it has no operand byte to fetch or to check (rule R86). -/
theorem step_ret (hf : Fetches s s.cfg.opcodes.ret) : step s = exec .ret s := by
  obtain ⟨bs, hw, -⟩ := fetchWindow_eq_cons s
  exact step_of_decodeOperands_ok (h := .ret) hf hw rfl

/-- Where a push's address exists or wraps, so does the stack pointer after the pop that undoes it. -/
theorem popFits_of_pushFits {u : State} (h : PushFits s) (hcfg : u.cfg = s.cfg)
    (hsp : u.sp = s.sp - 1#8) : PopFits u := by
  rcases h with hp | hle
  · exact .inl (hcfg ▸ hp)
  · refine .inr ?_
    rw [hsp]
    bv_omega

end Sys2Proof.Machine

namespace Sys2Proof.Machine

open Sys2Proof.Rules

/-! ### The statements -/

/-- Settles O14: the checks of format R, and none of JMP's own (`exec_jmp`). -/
theorem jmpStep : Obligations.JmpStep := by
  intro s hf
  exact step_of_decodeR (h := .jmp) hf (fun _ _ => rfl) fun _ => exec_jmp _ s

/-- Settles O15: the checks of format R, then those of a branch taken on `E`. -/
theorem jeqStep : Obligations.JeqStep := by
  intro s hf
  exact step_of_decodeR (h := .jeq) hf (fun _ _ => rfl) (branch_eq_after (jeqTaken s.fl) _)

/-- Settles O16: the checks of format R, then those of a branch taken on `G` or `L`. -/
theorem jneStep : Obligations.JneStep := by
  intro s hf
  exact step_of_decodeR (h := .jne) hf (fun _ _ => rfl) (branch_eq_after (jneTaken s.fl) _)

/-- Settles O17: the checks of format R, then CALL's own (`exec_call`). -/
theorem callStep : Obligations.CallStep := by
  intro s hf
  exact step_of_decodeR (h := .call) hf (fun _ _ => rfl) (exec_call _)

/-- Settles O18: RET has no operands, so its own check (`exec_ret`) is the only one. -/
theorem retStep : Obligations.RetStep := by
  intro s hf
  rw [step_ret hf]
  exact exec_ret s

/-- Settles O49: the RET reads the byte the CALL stored, and `sp` goes down by 1 and up again. -/
theorem returnGoesAfterTheCall : Obligations.ReturnGoesAfterTheCall := by
  intro s a hm hstack hpc
  refine ⟨called a s, exec_call_of_fits a hstack hpc, rfl, fun u hcfg hsp htop => ?_⟩
  have hread : u.mem.read u.sp.toNat = s.pc + 2#8 := by rw [hsp, htop, called_top hm]
  have hback : u.sp + 1#8 = s.sp := by rw [hsp, called_sp, BitVec.sub_add_cancel]
  rw [exec_ret_of_fits (popFits_of_pushFits hstack hcfg hsp), returned, hread, hback]

/-- Settles O4: JMP has no check, and a branch completes where it is taken or the next `pc` fits. -/
theorem jumpsComplete : Obligations.JumpsComplete := by
  intro s a
  refine ⟨exec_jmp a s, fun h => branch_of_taken_or_fits (taken := jeqTaken s.fl) a h, fun h => ?_⟩
  rw [← or_assoc, ← jneTaken_iff] at h
  exact branch_of_taken_or_fits a h

/-- Settles O5: where the addresses exist or wrap, every check passes. -/
theorem callAndReturnComplete : Obligations.CallAndReturnComplete :=
  ⟨fun _ a => exec_call_of_fits a, fun _ => exec_ret_of_fits⟩

end Sys2Proof.Machine
end

section
/-!
PROOFS. Exceptions (spec/60_exceptions.md): faults are precise (rule R190) and follow the table of causes (rule
R191). A step's fault comes from its fetch or from the checks of the fetched instruction (`step_fault_cases`).
For the fetch, `Reject.Locates` says which byte the decoder rejects; for the checks, `Instr.Raises` says which
fault an instruction can raise. Neither needs the opcode bytes to be distinct.
-/
namespace Sys2Proof

open Sys2Proof.Machine Sys2Proof.Rules

/-! ### The formats of the dispatch table -/

theorem operandBytes_le_two (f : Format) : f.operandBytes ≤ 2 := by
  cases f <;> decide

/-- A handler with two operand bytes has the opcode byte of a 3-byte instruction (rules R81, R86). -/
theorem threeByte_ofHandler {h : Handler} (hn : 2 ≤ h.format.operandBytes) (o : Opcodes) :
    ThreeByte o (o.ofHandler h) := by
  cases h with
  | ldi | mul | add | cmp => simp [ThreeByte, Opcodes.ofHandler]
  | _ => exact absurd hn (by decide)

/-- A handler with operand bytes has the opcode byte of a 2-byte or a 3-byte instruction (rules R81, R86). -/
theorem twoByte_or_threeByte_ofHandler {h : Handler} (hn : 1 ≤ h.format.operandBytes) (o : Opcodes) :
    TwoByte o (o.ofHandler h) ∨ ThreeByte o (o.ofHandler h) := by
  cases h with
  | ldi | mul | add | cmp => exact .inr (threeByte_ofHandler (by decide) o)
  | ret => exact absurd hn (by decide)
  | _ => simp [TwoByte, Opcodes.ofHandler]

/-! ### Which byte is rejected -/

/-- Where the operand bytes `bs` of a format with `n` of them are at fault: there are too few, or the first
names no register, or the first names one and the second does not (rules R85, R192). -/
def Reject.Locates (p : RangePolicy) (n : Nat) (bs : List Byte) : Reject → Prop
  | .missingByte => bs.length < n
  | .registerRange b =>
    (1 ≤ n ∧ [b] <+: bs) ∨ (2 ≤ n ∧ ∃ a r, selectReg p a = .ok r ∧ [a, b] <+: bs)

theorem locates_of_selectReg_first {p : RangePolicy} {n : Nat} {b : Byte} {bs : List Byte} {e : Reject}
    (hn : 1 ≤ n) (h : selectReg p b = .error e) : e.Locates p n (b :: bs) := by
  rcases selectReg_cases p b with ⟨h', -⟩ | ⟨h', -, -⟩
  · cases h'.symm.trans h
  · cases h'.symm.trans h
    exact .inl ⟨hn, by simp⟩

theorem locates_of_selectReg_second {p : RangePolicy} {a b : Byte} {r : Reg} {bs : List Byte} {e : Reject}
    (ha : selectReg p a = .ok r) (h : selectReg p b = .error e) : e.Locates p 2 (a :: b :: bs) := by
  rcases selectReg_cases p b with ⟨h', -⟩ | ⟨h', -, -⟩
  · cases h'.symm.trans h
  · cases h'.symm.trans h
    exact .inr ⟨Nat.le_refl 2, a, r, ha, by simp⟩

theorem locates_of_decodeR {p : RangePolicy} {mk : Reg → Instr} {bs : List Byte} {e : Reject}
    (h : decodeR p mk bs = .error e) : e.Locates p 1 bs := by
  unfold decodeR at h
  split at h
  · split at h
    · cases h
    · next h1 => cases h; exact locates_of_selectReg_first (by decide) h1
  · cases h; simp [Reject.Locates]

theorem locates_of_decodeRR {p : RangePolicy} {mk : Reg → Reg → Instr} {bs : List Byte} {e : Reject}
    (h : decodeRR p mk bs = .error e) : e.Locates p 2 bs := by
  unfold decodeRR at h
  split at h
  · split at h
    · next h1 => cases h; exact locates_of_selectReg_first (by decide) h1
    · next h1 =>
      split at h
      · cases h
      · next h2 => cases h; exact locates_of_selectReg_second h1 h2
  · cases h; simp [Reject.Locates]
  · cases h; simp [Reject.Locates]

theorem locates_of_decodeRI {p : RangePolicy} {mk : Reg → Byte → Instr} {bs : List Byte} {e : Reject}
    (h : decodeRI p mk bs = .error e) : e.Locates p 2 bs := by
  unfold decodeRI at h
  split at h
  · split at h
    · cases h
    · next h1 => cases h; exact locates_of_selectReg_first (by decide) h1
  · cases h; simp [Reject.Locates]
  · cases h; simp [Reject.Locates]

theorem locates_of_decodeOperands {p : RangePolicy} {h : Handler} {bs : List Byte} {e : Reject}
    (hd : decodeOperands p h bs = .error e) : e.Locates p h.format.operandBytes bs := by
  cases h with
  | ldi => exact locates_of_decodeRI hd
  | mul | add | cmp => exact locates_of_decodeRR hd
  | ret => cases hd
  | _ => exact locates_of_decodeR hd

/-- Only the operand bytes of a handler's instruction are rejected (rules R88, R90, R114). -/
theorem locates_of_decode {p : RangePolicy} {o : Opcodes} {op : Byte} {bs : List Byte} {e : Reject}
    (hd : decode p o (op :: bs) = .error e) :
    ∃ h, op = o.ofHandler h ∧ e.Locates p h.format.operandBytes bs := by
  rcases decode_cases p o op bs with ⟨-, h'⟩ | ⟨h, hop, -, h'⟩ | ⟨-, h'⟩
  · cases h'.symm.trans hd
  · exact ⟨h, hop, locates_of_decodeOperands (h'.symm.trans hd)⟩
  · cases h'.symm.trans hd

/-- The byte a decoded instruction was read from is the first of its encoding (rules R80, R86). -/
theorem head_encode_of_decode {p : RangePolicy} {o : Opcodes} {op : Byte} {bs rest : List Byte} {i : Instr}
    (hd : decode p o (op :: bs) = .ok (i, rest)) : (encode o i).head? = some op := by
  rcases decode_cases p o op bs with ⟨rfl, h'⟩ | ⟨h, rfl, -, h'⟩ | ⟨-, h'⟩
  · cases h'.symm.trans hd
    rfl
  · rw [encode_of_handler (handler_of_decodeOperands (h'.symm.trans hd)), List.head?_cons]
  · cases h'.symm.trans hd
    rfl

/-! ### The faults of an instruction's own checks -/

/-- The instructions that pop a byte: POP and RET (rule R160). -/
def Instr.pops : Instr → Bool
  | .pop _ | .ret => true
  | _ => false

/-- The instructions that check the sequential next `pc` under the flags `f`: CALL, whose return address it is,
and all that go on to it (rules R28, R173). -/
def Instr.advances : Instr → Flags → Bool
  | .jmp _, _ | .ret, _ | .hlt, _ => false
  | .jeq _, f => !jeqTaken f
  | .jne _, f => !jneTaken f
  | _, _ => true

/-- The faults that the checks of instruction `i` can raise in state `s` (rule R191). -/
inductive Instr.Raises (i : Instr) (s : State) : Trap → Prop
  | push (hi : i.pushes = true) (hp : s.cfg.rangePolicy = .fault) (hsp : s.sp = 0#8) :
      i.Raises s ⟨.stackRange, -1⟩
  | pop (hi : i.pops = true) (hp : s.cfg.rangePolicy = .fault) (hsp : s.sp = 255#8) :
      i.Raises s ⟨.stackRange, 256⟩
  | pc (hi : i.advances s.fl = true) (hp : s.cfg.rangePolicy = .fault)
      (hlt : 255 < s.pc.toNat + instrLength i) : i.Raises s ⟨.pcRange, s.pc.toNat + instrLength i⟩
  | opcode (op : Byte) (hi : i = .unk op) (hstrict : s.cfg.strictOpcode = true) :
      i.Raises s ⟨.illegalOpcode, op.toNat⟩

end Sys2Proof

namespace Sys2Proof.Machine

open Sys2Proof.Rules

variable {s : State} {i : Instr} {e : Trap}

theorem raises_of_pushAddr (hi : i.pushes = true) (he : pushAddr s = .error e) : i.Raises s e := by
  rcases pushAddr_cases s with ⟨h, -⟩ | ⟨h, hp, hsp⟩
  · cases h.symm.trans he
  · cases h.symm.trans he
    exact .push hi hp hsp

theorem raises_of_popAddr (hi : i.pops = true) (he : popAddr s = .error e) : i.Raises s e := by
  rcases popAddr_cases s with ⟨h, -⟩ | ⟨h, hp, hsp⟩
  · cases h.symm.trans he
  · cases h.symm.trans he
    exact .pop hi hp hsp

theorem raises_of_nextPc (hi : i.advances s.fl = true) (he : nextPc s (instrLength i) = .error e) :
    i.Raises s e := by
  rcases nextPc_cases s (instrLength i) with ⟨h, -⟩ | ⟨h, hp, hlt⟩
  · cases h.symm.trans he
  · cases h.symm.trans he
    exact .pc hi hp hlt

/-- An instruction's checks raise no other fault (rule R192). -/
theorem raises_of_pcAfter (he : i.pcAfter s = .error e) : i.Raises s e := by
  cases i with
  | push a =>
    rcases eq_error_of_bind he with hstack | ⟨-, hpc⟩
    · exact raises_of_pushAddr rfl hstack
    · exact raises_of_nextPc rfl hpc
  | pop a =>
    rcases eq_error_of_bind he with hstack | ⟨-, hpc⟩
    · exact raises_of_popAddr rfl hstack
    · exact raises_of_nextPc rfl hpc
  | call a =>
    rcases eq_error_of_bind he with hstack | ⟨-, hpc⟩
    · exact raises_of_pushAddr rfl hstack
    · exact raises_of_nextPc rfl (eq_error_of_map hpc)
  | ret => exact raises_of_popAddr rfl (eq_error_of_map he)
  | jmp a | hlt => cases he
  | jeq a | jne a =>
    rw [Instr.pcAfter] at he
    split at he
    · cases he
    · next hnot => exact raises_of_nextPc (by simpa [Instr.advances] using hnot) he
  | unk op =>
    rw [Instr.pcAfter] at he
    split at he
    · next hstrict =>
      cases he
      exact .opcode op rfl hstrict
    · exact raises_of_nextPc rfl he
  | _ => exact raises_of_nextPc rfl he

/-! ### The fetched instruction -/

theorem head_encode_of_fetchInstr (hf : fetchInstr s = .ok i) :
    (encode s.cfg.opcodes i).head? = some (cell s 0) := by
  obtain ⟨rest, hd⟩ := decode_of_fetchInstr hf
  obtain ⟨bs, hw, -⟩ := fetchWindow_eq_cons s
  exact head_encode_of_decode (hw ▸ hd)

theorem wellFormed_of_fetchInstr (hf : fetchInstr s = .ok i) : i.wellFormed s.cfg.opcodes = true := by
  obtain ⟨rest, hd⟩ := decode_of_fetchInstr hf
  exact (wellFormed_and_readsAs_of_decode hd).1

/-- A fetched UNK is the byte at `pc`, none of the thirteen (rule R112). -/
theorem unk_of_fetchInstr {op : Byte} (hf : fetchInstr s = .ok (.unk op)) :
    op = cell s 0 ∧ cell s 0 ∉ s.cfg.opcodes.bytes := by
  obtain rfl : op = cell s 0 := Option.some.inj (head_encode_of_fetchInstr hf)
  exact ⟨rfl, wellFormed_unk.mp (wellFormed_of_fetchInstr hf)⟩

/-- Under `fault` the last byte of a fetched instruction is in memory (rule R85). -/
theorem pc_add_instrLength_le (hf : fetchInstr s = .ok i) (hp : s.cfg.rangePolicy = .fault) :
    s.pc.toNat + instrLength i ≤ 256 := by
  obtain ⟨rest, hd⟩ := decode_of_fetchInstr hf
  obtain ⟨-, hlen, hmem⟩ := decodeConsumesTheFormatLength _ _ _ _ _ hd
  rcases fetchWindow_cases s with ⟨hin, hw⟩ | ⟨-, hpc, hw⟩ | ⟨-, hpc, hw⟩
  · have hle : s.pc.toNat + 2 ≤ 255 := hin.resolve_left (by simp [hp])
    rw [hw, List.length_cons, List.length_cons, List.length_singleton] at hlen
    omega
  · rw [hw, List.length_cons, List.length_singleton] at hlen
    omega
  · rw [hw, List.length_singleton] at hlen
    omega

/-! ### The rows of the table -/

theorem operandFetchRange_row
    (hd : decode s.cfg.rangePolicy s.cfg.opcodes (fetchWindow s) = .error .missingByte) :
    s.cfg.rangePolicy = .fault ∧ (rejectTrap s .missingByte).info = 256 ∧
      ((s.pc.toNat = 255 ∧ (TwoByte s.cfg.opcodes (cell s 0) ∨ ThreeByte s.cfg.opcodes (cell s 0))) ∨
        (s.pc.toNat = 254 ∧ ThreeByte s.cfg.opcodes (cell s 0))) := by
  rcases fetchWindow_cases s with ⟨-, hw⟩ | ⟨hp, hpc, hw⟩ | ⟨hp, hpc, hw⟩
  · obtain ⟨h, -, hlt⟩ := locates_of_decode (hw ▸ hd)
    exact absurd hlt (Nat.not_lt.mpr (operandBytes_le_two h.format))
  · obtain ⟨h, (hop : cell s 0 = _), hlt⟩ := locates_of_decode (hw ▸ hd)
    have hthree : ThreeByte s.cfg.opcodes (cell s 0) := hop ▸ threeByte_ofHandler hlt _
    exact ⟨hp, by simp [rejectTrap, hw, hpc], .inr ⟨hpc, hthree⟩⟩
  · obtain ⟨h, (hop : cell s 0 = _), hlt⟩ := locates_of_decode (hw ▸ hd)
    have hlong : TwoByte s.cfg.opcodes (cell s 0) ∨ ThreeByte s.cfg.opcodes (cell s 0) :=
      hop ▸ twoByte_or_threeByte_ofHandler hlt _
    exact ⟨hp, by simp [rejectTrap, hw, hpc], .inl ⟨hpc, hlong⟩⟩

theorem registerRange_row {b : Byte}
    (hd : decode s.cfg.rangePolicy s.cfg.opcodes (fetchWindow s) = .error (.registerRange b)) :
    s.cfg.rangePolicy = .fault ∧ 8 ≤ b.toNat ∧
      ((b = cell s 1 ∧
          (TwoByte s.cfg.opcodes (cell s 0) ∨ ThreeByte s.cfg.opcodes (cell s 0))) ∨
        (b = cell s 2 ∧ (cell s 1).toNat ≤ 7 ∧ ThreeByte s.cfg.opcodes (cell s 0))) := by
  obtain ⟨hp, hb, -⟩ := explains_of_decode hd
  obtain ⟨bs, hw, hbs⟩ := fetchWindow_eq_cons s
  obtain ⟨h, hop, hloc⟩ := locates_of_decode (hw ▸ hd)
  refine ⟨hp, hb, ?_⟩
  rw [hop]
  rcases hloc with ⟨hn, hpre⟩ | ⟨hn, a, r, hsel, hpre⟩
  · obtain rfl : b = cell s 1 := by simpa using hpre.trans hbs
    exact .inl ⟨rfl, twoByte_or_threeByte_ofHandler hn _⟩
  · obtain ⟨rfl, rfl⟩ : a = cell s 1 ∧ b = cell s 2 := by simpa using hpre.trans hbs
    refine .inr ⟨rfl, ?_, threeByte_ofHandler hn _⟩
    rcases selectReg_cases s.cfg.rangePolicy (cell s 1) with ⟨-, hin⟩ | ⟨hrej, -⟩
    · exact Nat.le_of_lt_succ (hin.resolve_left (by simp [hp]))
    · cases hsel.symm.trans hrej

theorem opcode_of_pushes (hf : fetchInstr s = .ok i) (hi : i.pushes = true) :
    cell s 0 = s.cfg.opcodes.push ∨ cell s 0 = s.cfg.opcodes.call := by
  have hop := head_encode_of_fetchInstr hf
  cases i with
  | push a => exact .inl (Option.some.inj hop).symm
  | call a => exact .inr (Option.some.inj hop).symm
  | _ => cases hi

theorem opcode_of_pops (hf : fetchInstr s = .ok i) (hi : i.pops = true) :
    cell s 0 = s.cfg.opcodes.pop ∨ cell s 0 = s.cfg.opcodes.ret := by
  have hop := head_encode_of_fetchInstr hf
  cases i with
  | pop a => exact .inl (Option.some.inj hop).symm
  | ret => exact .inr (Option.some.inj hop).symm
  | _ => cases hi

/-- A PcRange fault is at the one `pc` whose instruction ends at the top of memory (rule R191). -/
theorem pcRange_row (hf : fetchInstr s = .ok i) (hi : i.advances s.fl = true)
    (hpc : s.pc.toNat + instrLength i = 256) :
    (s.pc.toNat = 253 ∧ ThreeByte s.cfg.opcodes (cell s 0)) ∨
      (s.pc.toNat = 254 ∧ TwoByteAdvance s (cell s 0)) ∨
      (s.pc.toNat = 255 ∧ cell s 0 ∉ s.cfg.opcodes.bytes) := by
  have hop := head_encode_of_fetchInstr hf
  cases i with
  | ldi | mul | add | cmp =>
    exact .inl ⟨Nat.add_right_cancel hpc, by simp [ThreeByte, ← Option.some.inj hop]⟩
  | prn | push | pop | call =>
    exact .inr (.inl ⟨Nat.add_right_cancel hpc, by simp [TwoByteAdvance, ← Option.some.inj hop]⟩)
  | jeq a =>
    have he : s.fl.e = false := by simpa [Instr.advances, jeqTaken] using hi
    exact .inr (.inl ⟨Nat.add_right_cancel hpc, by simp [TwoByteAdvance, ← Option.some.inj hop, he]⟩)
  | jne a =>
    have hgl : s.fl.g = false ∧ s.fl.l = false := by simpa [Instr.advances, jneTaken] using hi
    exact .inr (.inl ⟨Nat.add_right_cancel hpc, by simp [TwoByteAdvance, ← Option.some.inj hop, hgl]⟩)
  | unk op => exact .inr (.inr ⟨Nat.add_right_cancel hpc, (unk_of_fetchInstr hf).2⟩)
  | jmp | ret | hlt => cases hi

end Sys2Proof.Machine

namespace Sys2Proof.Machine

/-! ### The statements -/

/-- Settles O30: a step that ends FAULTED is a `raise`, which writes the run state alone, and from FAULTED no
step exists (rule R32). -/
theorem faultsArePrecise : Obligations.FaultsArePrecise := by
  intro s t tr hstep hrun
  exact ⟨(step_fault_cases hstep hrun).1, (noStepFromHaltedOrFaulted t).2 tr hrun⟩

/-- Settles O31: the fault is the decoder's rejection, in one of the first two rows, or one that the fetched
instruction's checks raise, in the others. -/
theorem faultCausesFollowTheTable : Obligations.FaultCausesFollowTheTable := by
  refine ⟨fun s t tr hstep hrun => ?_, rfl⟩
  obtain ⟨-, ⟨r, hd, rfl⟩ | ⟨i, hf, he⟩⟩ := step_fault_cases hstep hrun
  · cases r with
    | missingByte => exact operandFetchRange_row hd
    | registerRange b =>
      obtain ⟨hp, hb, hrow⟩ := registerRange_row hd
      have hlt := b.isLt
      simp only [rejectTrap]
      exact ⟨hp, by omega, by omega, hrow.imp (And.imp_left fun h => by rw [h])
        (And.imp_left fun h => by rw [h])⟩
  · cases raises_of_pcAfter he with
    | push hi hp hsp => exact ⟨hp, .inl ⟨rfl, by rw [hsp]; rfl, opcode_of_pushes hf hi⟩⟩
    | pop hi hp hsp => exact ⟨hp, .inr ⟨rfl, by rw [hsp]; rfl, opcode_of_pops hf hi⟩⟩
    | pc hi hp hlt =>
      have hle := pc_add_instrLength_le hf hp
      exact ⟨hp, by simp only; omega, pcRange_row hf hi (by omega)⟩
    | opcode op hi hstrict =>
      subst hi
      obtain ⟨rfl, hop⟩ := unk_of_fetchInstr hf
      exact ⟨hstrict, rfl, hop⟩

end Sys2Proof.Machine
end

section
/-!
PROOFS. Reset (spec/70_reset_and_hazards.md): the state after construction (rule R220). Its registers below
`x[7]` are `constructed_getReg`; the fields not written from the parameters hold the model's reset constants.
-/
namespace Sys2Proof.Machine

/-- After construction no cell is listed, and an unlisted cell reads as zero (rule R220). -/
theorem constructed_read (c : Config) (a : Nat) : (State.constructed c).mem.read a = 0#8 := rfl

/-- Construction writes `x[7]` from the parameter R7_RESET (rule R220, decision D4). -/
theorem constructed_getReg_seven (c : Config) : (State.constructed c).getReg 7 = c.r7Reset := rfl

/-- Settles O46: the constructed fields, and for `State.reset` the same at the default parameters. -/
theorem constructionValues : Obligations.ConstructionValues := by
  refine ⟨fun c => ?_, constructed_getReg_seven Config.standard, rfl⟩
  exact ⟨constructed_read c, fun _ hr => constructed_getReg c hr, constructed_getReg_seven c,
    rfl, rfl, rfl, rfl, rfl⟩

end Sys2Proof.Machine
end

section
/-!
PROOFS. The encoding vectors (spec/95_test_vectors.md section 2.1). Each vector's bytes are the default encoding
of the instruction beside them, so the round trip (O21) decodes them.
-/
namespace Sys2Proof.Machine

/-- The round trip at the default opcode bytes, with nothing after the instruction. -/
theorem decode_of_encode_standard {i : Instr} {bs : List Byte} (hbs : encode Opcodes.standard i = bs)
    (hwf : i.wellFormed Opcodes.standard = true) :
    decode .fault Opcodes.standard bs = .ok (i, []) := by
  have hd : Opcodes.standard.Distinct := by decide
  have hround := decodeOfEncodeIsTheInstruction .fault Opcodes.standard i [] hd hwf
  rwa [List.append_nil, hbs] at hround

/-- Settles O23: E1 to E13 and E17 are encodings of the thirteen instructions, E14 to E16 of unknown bytes. -/
theorem encodingVectorsDecode : Obligations.EncodingVectorsDecode := by
  unfold Obligations.EncodingVectorsDecode
  and_intros <;> exact decode_of_encode_standard rfl rfl

end Sys2Proof.Machine
end
